-- ==== Sys2Proof/Word.lean ====
section
/-! DEFINITION. The two word types of the spec: bytes (R7) and unsigned 16-bit values (R8). -/

namespace Sys2Proof

/-- An unsigned 8-bit value (R7). -/
abbrev Byte := BitVec 8

/-- An unsigned 16-bit value, `u16` (R8). -/
abbrev U16 := BitVec 16

end Sys2Proof
end

