-- ==== Sys2Proof/Syntax.lean ====
section
/-! DEFINITION. `Instr`: one constructor per row of spec/opcode_table.json. -/

namespace Sys2Proof

/-- The rows of the opcode table. A length field (`N`, `RLEN`, `len_prefix`) is no argument: it is the
length of the byte string it counts. -/
inductive Instr
  /-- `CRC16` (R63, R104). -/
  | crc16 (pad : Bool) (data : List Byte)
  /-- `FRSEND` (R64, R120). -/
  | frsend (payload : List Byte)
  /-- `FRRECV` (R65, R150). -/
  | frrecv
  /-- `HDRBLD` (R66, R181). -/
  | hdrbld (op : Byte) (group : U16) (id : Byte) (blen : U16)
  /-- `HDRPRS` (R67, R185). -/
  | hdrprs (eop : Byte) (egroup : U16) (eid : Byte) (resp : List Byte)
  /-- The reserved `OPC` 0x00, with whatever bytes follow it (R77, R201). -/
  | reserved00 (rest : List Byte)
  /-- A reserved `OPC` 0x06 to 0xFF, with whatever bytes follow it (R77, R201). -/
  | reservedHi (opc : Byte) (rest : List Byte)
  /-- `SEG_START`: a start segment line and its text `T` (R74). -/
  | segStart (text : List Byte)
  /-- `SEG_CONT`: a continuation segment line and its text `T` (R74). -/
  | segCont (text : List Byte)
  /-- `FRAME`: a payload and the trailer that follows it (R72). -/
  | frame (payload : List Byte) (trailer : U16)
  /-- `NMP_READ` (ping request): the header's `len` and `seq` (R75, R180). -/
  | nmpRead (len : U16) (seq : Byte)
  /-- `NMP_READ_RSP` (ping response): the header's `flags`, `len` and `seq` (R75, R188). -/
  | nmpReadRsp (flags : Byte) (len : U16) (seq : Byte)
  /-- `NMP_WRITE` (image upload request): the header's `len` and `seq` (R75, R180). -/
  | nmpWrite (len : U16) (seq : Byte)
  /-- `NMP_WRITE_RSP` (image upload response): the header's `flags`, `len` and `seq` (R75, R188). -/
  | nmpWriteRsp (flags : Byte) (len : U16) (seq : Byte)
  /-- `SENDREQ H, BODY`: a host sequence with no `OPC` (R68). -/
  | sendreq (header : List Byte) (body : List Byte)
  /-- `PING`: a host sequence with no `OPC` (R69). -/
  | ping
  deriving DecidableEq, Repr

end Sys2Proof
end

