-- ==== Sys2Proof/WellFormed.lean ====
section
/-! DEFINITION. `Instr.wf`: the operand ranges within which an instruction has words (R63 to R74). -/

namespace Sys2Proof

/-- The operands fit the fields of the instruction's encoding: a 16-bit length field counts at most 65535
bytes (R63, R64, R67), a frame's prefix counts payload and trailer (R72), a segment's text holds no `LF`
(R74, R153), the opcode of the upper reserved range is in it (R62), and a `SENDREQ` header has 8 bytes and
fits one `FRSEND` with its body (R68). -/
def Instr.wf : Instr → Bool
  | .crc16 _ data       => data.length ≤ 65535
  | .frsend payload     => payload.length ≤ 65535
  | .frrecv             => true
  | .hdrbld _ _ _ _     => true
  | .hdrprs _ _ _ resp  => resp.length ≤ 65535
  | .reserved00 _       => true
  | .reservedHi opc _   => 0x06 ≤ opc.toNat
  | .segStart text      => !text.contains 0x0A
  | .segCont text       => !text.contains 0x0A
  | .frame payload _    => payload.length ≤ 65533
  | .nmpRead _ _        => true
  | .nmpReadRsp _ _ _   => true
  | .nmpWrite _ _       => true
  | .nmpWriteRsp _ _ _  => true
  | .sendreq hdr body   => hdr.length == 8 && body.length ≤ 65527
  | .ping               => true

end Sys2Proof
end

