-- ==== Sys2Proof/Decode.lean ====
section
/-! DEFINITION. The decoders of the four encoding spaces, total on any bytes and rejecting by name, and the
encoder written from the same layouts (30_encoding.md; spec/opcode_table.json). -/

namespace Sys2Proof

/-! ## Byte strings and integers (R7, R8, R41) -/

/-- `be16(v)`: most significant byte first (R8). -/
def be16 (v : U16) : List Byte := [v.extractLsb' 8 8, v.extractLsb' 0 8]

/-- `be16` of a natural below 2^16. -/
def be16Nat (n : Nat) : List Byte := be16 (BitVec.ofNat 16 n)

/-- `B[i]`, for `i < len(B)`. -/
def byteAt (b : List Byte) (i : Nat) : Byte := b.getD i 0

/-- `rd16(B, i) = B[i] * 256 + B[i+1]` (R8). -/
def rd16 (b : List Byte) (i : Nat) : U16 :=
  BitVec.ofNat 16 ((byteAt b i).toNat * 256 + (byteAt b (i + 1)).toNat)

/-- `B[a:b]` (R7). -/
def slice (s : List Byte) (a b : Nat) : List Byte := (s.drop a).take (b - a)

/-- `zeros(n)` (R7). -/
def zeros (n : Nat) : List Byte := List.replicate n 0x00

/-! ## Constants of the formats (R4) -/

/-- `LF` (R4). -/
def lf : Byte := 0x0A
/-- `CR` (R4). -/
def cr : Byte := 0x0D
/-- `START_MARKER` (R4). -/
def startMarker : List Byte := [0x06, 0x09]
/-- `CONT_MARKER` (R4). -/
def contMarker : List Byte := [0x04, 0x14]

/-! ## Decoding -/

/-- Why bytes are no instruction of their space. -/
inductive DecodeError
  /-- A command descriptor of no bytes (R201). -/
  | emptyDescriptor
  /-- A `CRC16` descriptor with `PB` bits 7:1 nonzero (R63, R77). -/
  | reservedBits
  /-- A descriptor whose length differs from its layout's (R77). -/
  | badLength
  /-- A line that begins with neither marker (R157). -/
  | noMarker
  /-- Wire bytes that do not end in the line's only `LF` (R74, R153). -/
  | badLineEnd
  /-- Fewer bytes than a frame's prefix and trailer (R72). -/
  | shortFrame
  /-- A frame whose prefix is not its length less 2 (R72). -/
  | badPrefix
  /-- A header that is not 8 bytes (R75). -/
  | badHeaderLength
  /-- A header with none of the four `op`, `group`, `id` triples the table lists (R76). -/
  | unknownHeader
  /-- A request header whose `flags` is not `NMP_FLAGS_VALUE` (R75, R180). -/
  | badFlags
  deriving DecidableEq, Repr

/-- The encoding spaces: the same bytes mean different things on the command port, on the UART line, in a
frame and in a header. -/
inductive Space
  | command
  | wire
  | frame
  | header
  deriving DecidableEq, Repr

/-- The operands of `01 | PB | N(2) | DATA[N]` (R63). -/
def decodeCrc16 : List Byte → Except DecodeError Instr
  | pb :: n1 :: n0 :: data =>
    if pb &&& 0xFE ≠ 0 then .error .reservedBits
    else if data.length ≠ (rd16 [n1, n0] 0).toNat then .error .badLength
    else .ok (.crc16 (pb.getLsbD 0) data)
  | _ => .error .badLength

/-- The operands of `02 | N(2) | P[N]` (R64). -/
def decodeFrsend : List Byte → Except DecodeError Instr
  | n1 :: n0 :: payload =>
    if payload.length ≠ (rd16 [n1, n0] 0).toNat then .error .badLength else .ok (.frsend payload)
  | _ => .error .badLength

/-- `03`, with nothing after it (R65). -/
def decodeFrrecv : List Byte → Except DecodeError Instr
  | [] => .ok .frrecv
  | _ => .error .badLength

/-- The operands of `04 | OP | GRP(2) | ID | BLEN(2)` (R66). -/
def decodeHdrbld : List Byte → Except DecodeError Instr
  | [op, g1, g0, id, l1, l0] => .ok (.hdrbld op (rd16 [g1, g0] 0) id (rd16 [l1, l0] 0))
  | _ => .error .badLength

/-- The operands of `05 | EOP | EGRP(2) | EID | RLEN(2) | R[RLEN]` (R67). -/
def decodeHdrprs : List Byte → Except DecodeError Instr
  | eop :: g1 :: g0 :: eid :: l1 :: l0 :: resp =>
    if resp.length ≠ (rd16 [l1, l0] 0).toNat then .error .badLength
    else .ok (.hdrprs eop (rd16 [g1, g0] 0) eid resp)
  | _ => .error .badLength

/-- A command descriptor (R60, R62): the decoder of the command port. -/
def decode : List Byte → Except DecodeError Instr
  | [] => .error .emptyDescriptor
  | opc :: rest =>
    if opc = 0x00 then .ok (.reserved00 rest)
    else if opc = 0x01 then decodeCrc16 rest
    else if opc = 0x02 then decodeFrsend rest
    else if opc = 0x03 then decodeFrrecv rest
    else if opc = 0x04 then decodeHdrbld rest
    else if opc = 0x05 then decodeHdrprs rest
    else .ok (.reservedHi opc rest)

/-- A received line, its `LF` taken off and a leading `CR` stripped: the marker test (R157). -/
def decodeLine (l : List Byte) : Except DecodeError Instr :=
  if l.length < 2 then .error .noMarker
  else if slice l 0 2 = startMarker then .ok (.segStart (l.drop 2))
  else if slice l 0 2 = contMarker then .ok (.segCont (l.drop 2))
  else .error .noMarker

/-- A segment line with its `LF` (R74). -/
def decodeWire (w : List Byte) : Except DecodeError Instr :=
  if w.getLast? = some lf ∧ lf ∉ w.dropLast then decodeLine w.dropLast else .error .badLineEnd

/-- A frame (R72). -/
def decodeFrame (f : List Byte) : Except DecodeError Instr :=
  if f.length < 4 then .error .shortFrame
  else if (rd16 f 0).toNat ≠ f.length - 2 then .error .badPrefix
  else .ok (.frame (slice f 2 (f.length - 2)) (rd16 f (f.length - 2)))

/-- An NMP header of one of the table's four kinds (R75, R76): `op`, `group` and `id` select the kind. -/
def decodeHeader : List Byte → Except DecodeError Instr
  | [op, flags, l1, l0, g1, g0, seq, id] =>
    let len := rd16 [l1, l0] 0
    let group := rd16 [g1, g0] 0
    if op = 0x00 ∧ group = 0x0000 ∧ id = 0x01 then
      if flags = 0x00 then .ok (.nmpRead len seq) else .error .badFlags
    else if op = 0x01 ∧ group = 0x0000 ∧ id = 0x01 then .ok (.nmpReadRsp flags len seq)
    else if op = 0x02 ∧ group = 0x0001 ∧ id = 0x01 then
      if flags = 0x00 then .ok (.nmpWrite len seq) else .error .badFlags
    else if op = 0x03 ∧ group = 0x0001 ∧ id = 0x01 then .ok (.nmpWriteRsp flags len seq)
    else .error .unknownHeader
  | _ => .error .badHeaderLength

/-- The decoder of a space. -/
def decodeIn : Space → List Byte → Except DecodeError Instr
  | .command => decode
  | .wire    => decodeWire
  | .frame   => decodeFrame
  | .header  => decodeHeader

/-! ## Encoding -/

/-- `hdr(op, flags, len, group, seq, id)` (R75). -/
def hdr (op flags : Byte) (len group : U16) (seq id : Byte) : List Byte :=
  [op, flags] ++ be16 len ++ be16 group ++ [seq, id]

/-- The space an instruction's words belong to; `SENDREQ` and `PING` have no words (R68, R69). -/
def Instr.space : Instr → Option Space
  | .crc16 _ _         => some .command
  | .frsend _          => some .command
  | .frrecv            => some .command
  | .hdrbld _ _ _ _    => some .command
  | .hdrprs _ _ _ _    => some .command
  | .reserved00 _      => some .command
  | .reservedHi _ _    => some .command
  | .segStart _        => some .wire
  | .segCont _         => some .wire
  | .frame _ _         => some .frame
  | .nmpRead _ _       => some .header
  | .nmpReadRsp _ _ _  => some .header
  | .nmpWrite _ _      => some .header
  | .nmpWriteRsp _ _ _ => some .header
  | .sendreq _ _       => none
  | .ping              => none

/-- The words of an instruction, from the layouts of R62 to R67, R72, R74 and R75. `SENDREQ` and `PING`
have no `OPC` and no words (R68, R69). -/
def encode : Instr → List Byte
  | .crc16 pad data            => [0x01, if pad then 0x01 else 0x00] ++ be16Nat data.length ++ data
  | .frsend payload            => [0x02] ++ be16Nat payload.length ++ payload
  | .frrecv                    => [0x03]
  | .hdrbld op group id blen   => [0x04, op] ++ be16 group ++ [id] ++ be16 blen
  | .hdrprs eop egroup eid r   => [0x05, eop] ++ be16 egroup ++ [eid] ++ be16Nat r.length ++ r
  | .reserved00 rest           => 0x00 :: rest
  | .reservedHi opc rest       => opc :: rest
  | .segStart text             => startMarker ++ text ++ [lf]
  | .segCont text              => contMarker ++ text ++ [lf]
  | .frame payload trailer     => be16Nat (payload.length + 2) ++ payload ++ be16 trailer
  | .nmpRead len seq           => hdr 0x00 0x00 len 0x0000 seq 0x01
  | .nmpReadRsp flags len seq  => hdr 0x01 flags len 0x0000 seq 0x01
  | .nmpWrite len seq          => hdr 0x02 0x00 len 0x0001 seq 0x01
  | .nmpWriteRsp flags len seq => hdr 0x03 flags len 0x0001 seq 0x01
  | .sendreq _ _               => []
  | .ping                      => []

/-! ## Words as the opcode table numbers them -/

/-- The first `n` bytes of a word, bits 7 to 0 first. -/
def wordBytes : Nat → Nat → List Byte
  | 0, _ => []
  | n + 1, w => BitVec.ofNat 8 w :: wordBytes n (w / 256)

/-- The bytes a descriptor's layout asks for, read from its head as far as it is there (R63 to R67, R79). -/
def descriptorLength (d : List Byte) : Nat :=
  if byteAt d 0 = 0x01 then 4 + (rd16 d 2).toNat
  else if byteAt d 0 = 0x02 then 3 + (rd16 d 1).toNat
  else if byteAt d 0 = 0x04 then 7
  else if byteAt d 0 = 0x05 then 7 + (rd16 d 5).toNat
  else 1

/-- A word of the table and the bytes it stands for, every bit above `nbits` zero. DEDUCED (log 13): the
table's 16-bit rows are the two segment markers and give the marker as a number written first byte first,
so a 16-bit word that is a marker is a segment line of no text; a 64-bit word that is a header of the table
is that header; any other word is a command descriptor, its first byte in bits 7 to 0. -/
def tableWord (nbits w : Nat) : Space × List Byte :=
  if nbits = 16 ∧ (be16Nat w = startMarker ∨ be16Nat w = contMarker) then (.wire, be16Nat w ++ [lf])
  else
    let d := wordBytes (nbits / 8) w
    if nbits = 64 ∧ (decodeHeader d).isOk then (.header, d)
    else (.command, d ++ zeros (descriptorLength d - d.length))

/-- The instruction the decoders read from a table word. -/
def decodeTableWord (nbits w : Nat) : Option Instr :=
  let (space, bytes) := tableWord nbits w
  (decodeIn space bytes).toOption

end Sys2Proof
end

