-- ==== Sys2Proof/Config.lean ====
section
/-! DEFINITION. What an instance of the block fixes (the parameters of R5) and the one free value of the
environment (the sink's answer where nothing else says it). -/

namespace Sys2Proof

/-- `CRC_POLICY` (R5, R25): what `FRRECV` does with a complete frame whose residual is nonzero. -/
inductive CrcPolicy
  | accept
  | reject
  deriving DecidableEq, Repr, Inhabited

/-- The parameters of R5. `TICK` is only the name of the unit of `now` and has no value (log 18). -/
structure Params where
  /-- `RX_TIMEOUT`, ticks. -/
  rxTimeout    : Nat
  /-- `BYTE_WAIT`, ticks; no rule reads it (R152, R242; log 18). -/
  byteWait     : Nat
  /-- `CONT_DELAY`, ticks. -/
  contDelay    : Nat
  /-- `LINE_CAP`, bytes. -/
  lineCap      : Nat
  /-- `RX_CAP`, bytes. -/
  rxCap        : Nat
  /-- `TX_MAX_PAYLOAD`, bytes. -/
  txMaxPayload : Nat
  /-- `SEQ_INIT`. -/
  seqInit      : Byte
  /-- `CRC_POLICY`. -/
  crcPolicy    : CrcPolicy
  deriving DecidableEq, Repr

/-- The ranges of R5. DEDUCED (log 17): `RX_TIMEOUT = 0` is admitted, as R169 and V5.8 use it, although no
`BYTE_WAIT` is then in R5's range. -/
abbrev Params.wf (p : Params) : Prop :=
  0 < p.byteWait ∧ (p.byteWait ≤ p.rxTimeout ∨ p.rxTimeout = 0) ∧
  127 ≤ p.lineCap ∧
  4098 ≤ p.rxCap ∧ p.rxCap ≤ 65535 ∧
  4096 ≤ p.txMaxPayload ∧ p.txMaxPayload ≤ 65533

/-- The parameters of `State.reset`. DESIGN CHOICE (logs 1 and 2): the source's nominal times at one tick
a millisecond, the least capacities R5 allows, `SEQ_INIT = 0`, and R5's default policy. -/
def Params.nominal : Params where
  rxTimeout    := 10000
  byteWait     := 1
  contDelay    := 20
  lineCap      := 127
  rxCap        := 4098
  txMaxPayload := 4096
  seqInit      := 0x00
  crcPolicy    := .accept

/-- What the UART byte sink does with a write (R44; 93 I8): it accepts the byte, reports a write error, or
still holds the write. -/
inductive SinkAnswer
  | accept
  | ioerr
  | hold
  deriving DecidableEq, Repr, Inhabited

/-- The sink's answer to a write that `State.sinkPlan` does not answer: any value (93 I8). A free value, so
nothing can be proved of it (log 6). -/
opaque Config.sinkAnswer : Nat → SinkAnswer

end Sys2Proof
end

