-- ==== Sys2Proof/Machine/State.lean ====
section
/-! DEFINITION. The state of the block (R20), of its environment and of its host, and the state after
power-on. The block has no registers, no program counter, no flags and no memory (R21, R22, R23, R40). -/

namespace Sys2Proof.Machine

/-- Why the machine stops with a fault: never. No condition traps (R205; 93 section 1), so this type is
empty (log 20). -/
inductive Fault
  deriving DecidableEq, Repr

/-- Why an instruction is refused. -/
inductive Refusal
  /-- Raised by `exec` only, for an instruction that has no meaning yet; safe. No arm uses it. -/
  | notModelled (mnemonic : String)
  deriving DecidableEq, Repr

/-- The commands that stay `BUSY` between steps: the others are one step (R10, 92 D2; log 15). -/
inductive Engine
  | frsend
  | frrecv
  deriving DecidableEq, Repr

/-- `CTRL` (R20, R26). -/
inductive Ctrl
  | idle
  | busy (cmd : Engine)
  deriving DecidableEq, Repr

/-- `RXPH` (R20, R28). -/
inductive RxPhase
  | hunt
  | accum
  deriving DecidableEq, Repr

/-- What the host or the timebase does next (R6, R230, R235; log 3). -/
inductive Input
  /-- `Now()` advances by this many ticks. -/
  | tick (ticks : Nat)
  /-- The running engine, or the host's own sequence, moves by one step. -/
  | proceed
  /-- The host asserts `RESET`. -/
  | reset
  /-- The host presents a command descriptor. -/
  | command (descriptor : List Byte)
  /-- The host presents an instruction by name: a pseudo-command, or any instruction in the abstract
  spelling that R60's introduction allows. -/
  | perform (instr : Instr)
  deriving DecidableEq, Repr

/-- Where the host is in one of its two fixed sequences (R68, R69; log 12). -/
inductive HostPhase
  /-- In no sequence. -/
  | free
  /-- `PING`: its `HDRBLD` has been presented. -/
  | building
  /-- `SENDREQ` (within `PING`, if `ping`): its `FRSEND` has been presented. -/
  | sending (ping : Bool)
  /-- `SENDREQ` (within `PING`, if `ping`): its `FRRECV` has been presented. -/
  | receiving (ping : Bool)
  /-- `PING`: its `HDRPRS` has been presented. -/
  | parsing
  deriving DecidableEq, Repr

/-- What a host sequence returns: `SENDREQ` a payload or none (R68), `PING` success or failure (R69). -/
inductive HostReturn
  | sendreq (response : Option (List Byte))
  | ping (success : Bool)
  deriving DecidableEq, Repr

/-- Everything a step reads or writes. -/
structure State where
  /-- The instance's parameters (R5, R25). -/
  params   : Params
  /-- `SEQ` (R24). -/
  seq      : Byte
  /-- `CTRL` (R26). -/
  ctrl     : Ctrl
  /-- `TXSEGS` (R27). -/
  txsegs   : List (List Byte)
  /-- `TXI` (R27). -/
  txi      : Nat
  /-- `TXJ` (R27). -/
  txj      : Nat
  /-- `TXWAKE` (R27). -/
  txwake   : Nat
  /-- `LINE` (R28). -/
  line     : List Byte
  /-- `LOVF` (R28). -/
  lovf     : Bool
  /-- `RXPH` (R28). -/
  rxph     : RxPhase
  /-- `EXP` (R28). -/
  exp      : U16
  /-- `ACC` (R28). -/
  acc      : List Byte
  /-- `DEADLINE` (R28). -/
  deadline : Nat
  /-- `Now()` (R9). -/
  now      : Nat
  /-- The UART byte source: arrival tick and byte, in arrival order, waiting and still to come (R32, R45). -/
  source   : List (Nat × Byte)
  /-- The UART byte sink's coming answers (R44; 93 I8). -/
  sinkPlan : List SinkAnswer
  /-- How many answers have been taken from `Config.sinkAnswer` (log 6). -/
  draws    : Nat
  /-- The bytes the sink has accepted, oldest first (R44). -/
  sent     : List Byte
  /-- What the host and the timebase do next, oldest first (log 3). -/
  agenda   : List Input
  /-- The host's sequence (R68, R69). -/
  host     : HostPhase
  /-- The result descriptors delivered, oldest first (R61, R206). -/
  results  : List (List Byte)
  /-- What the host's sequences returned, oldest first (R68, R69). -/
  returns  : List HostReturn
  deriving DecidableEq, Repr

/-- Power-on of an instance with parameters `p` (R20, R230, R232), with an environment that has done
nothing yet and plans nothing (logs 3 to 6). -/
def State.resetWith (p : Params) : State where
  params   := p
  seq      := p.seqInit
  ctrl     := .idle
  txsegs   := []
  txi      := 0
  txj      := 0
  txwake   := 0
  line     := []
  lovf     := false
  rxph     := .hunt
  exp      := 0
  acc      := []
  deadline := 0
  now      := 0
  source   := []
  sinkPlan := []
  draws    := 0
  sent     := []
  agenda   := []
  host     := .free
  results  := []
  returns  := []

/-- The machine right after reset. DESIGN CHOICE (logs 1 and 2): the parameters are `Params.nominal`. -/
def State.reset : State := State.resetWith Params.nominal

end Sys2Proof.Machine
end

