-- ==== Sys2Proof/Machine/Flags.lean ====
section
/-! DEFINITION. The status codes. The block has no condition flags (R23): each outcome is the status byte of
its result descriptor (R200). -/

namespace Sys2Proof.Machine

/-- `OK` (R200). -/
def stOk : Byte := 0x00
/-- `NO_DATA` (R200, R204). -/
def stNoData : Byte := 0x01
/-- `CRC_WARN` (R200, R209). -/
def stCrcWarn : Byte := 0x02
/-- `HDR_MISMATCH` (R200, R208). -/
def stHdrMismatch : Byte := 0x03
/-- `HDR_SHORT` (R200, R208). -/
def stHdrShort : Byte := 0x04
/-- `TOO_LONG` (R200, R202). -/
def stTooLong : Byte := 0x05
/-- `IO_ERROR` (R200, R203). -/
def stIoError : Byte := 0x06
/-- `ILLEGAL_CMD` (R200, R201). -/
def stIllegalCmd : Byte := 0x07

/-- The status of a completed frame with residual `r` (R166). -/
def frameStatus (r : U16) : Byte := if r = 0 then stOk else stCrcWarn

/-- The status of a header whose three fields are `op`, `grp` and `id` where `eop`, `egrp` and `eid` were
expected (R188). -/
def matchStatus (op : Byte) (grp : U16) (id : Byte) (eop : Byte) (egrp : U16) (eid : Byte) : Byte :=
  if op = eop ∧ grp = egrp ∧ id = eid then stOk else stHdrMismatch

end Sys2Proof.Machine
end

