-- ==== Sys2Proof/Machine/Operands.lean ====
section
/-! DEFINITION. Operand access: the fields of an NMP header (R187) and of a result descriptor (R61, R65,
R66). No command names a register or an address (R21, R40). -/

namespace Sys2Proof.Machine

/-- `op = R[0]` (R187). -/
def hdrOp (r : List Byte) : Byte := byteAt r 0
/-- `group = rd16(R, 4)` (R187). -/
def hdrGroup (r : List Byte) : U16 := rd16 r 4
/-- `id = R[7]` (R187). -/
def hdrId (r : List Byte) : Byte := byteAt r 7

/-- The status byte of a result descriptor (R61). -/
def resStatus (r : List Byte) : Byte := byteAt r 0
/-- The header in an `OK` result of `HDRBLD`, `h[1:9]` (R66, R69). -/
def resHeader (r : List Byte) : List Byte := slice r 1 9
/-- The payload in a result of `FRRECV`, `r[5:]` (R65, R68). -/
def resPayload (r : List Byte) : List Byte := r.drop 5

/-- The result descriptor the host took last (R6, R61). -/
def State.lastResult (s : State) : List Byte := s.results.getLast?.getD []

end Sys2Proof.Machine
end

