-- ==== Sys2Proof/Machine/Ops.lean ====
section
/-! DEFINITION. The operations every command is made of: the end of a command (R206, which stands where
other hardware takes a trap: R205), the UART accesses (R44, R45), the wait (R9) and `RESET` (R230). -/

namespace Sys2Proof.Machine

/-- A meaning's answer: no command faults or is refused (R205). -/
abbrev Result := Host.Outcome State Fault Refusal

/-- `finish(code, data)` (R206): deliver the result and return to idle, in one step. -/
def finish (code : Byte) (data : List Byte) (s : State) : State :=
  { s with ctrl := .idle, results := s.results ++ [code :: data] }

/-- `ILLEGAL_CMD` (R201): the single byte 07 and no other effect. -/
def finishIllegal (s : State) : State := finish stIllegalCmd [] s

/-- `WaitUntil(t)` (R9): time passes until `Now() >= t`. -/
def waitUntil (t : Nat) (s : State) : State := { s with now := max s.now t }

/-- The sink's answer to the write now made: the next of `sinkPlan`, and past its end a free value
(R44; 93 I8; log 6). -/
def sinkAnswer (s : State) : SinkAnswer × State :=
  match s.sinkPlan with
  | a :: rest => (a, { s with sinkPlan := rest })
  | []        => (Config.sinkAnswer s.draws, { s with draws := s.draws + 1 })

/-- `UartWrite(b)` (R44): an accepted byte is on the line. -/
def uartWrite (b : Byte) (s : State) : SinkAnswer × State :=
  match sinkAnswer s with
  | (.accept, s') => (.accept, { s' with sent := s'.sent ++ [b] })
  | (.ioerr, s')  => (.ioerr, s')
  | (.hold, s')   => (.hold, s')

/-- `UartRead(t)` (R45): the next byte if it is there, or comes, while `Now() < t`; otherwise `none`, once
`Now() >= t`. -/
def uartRead (t : Nat) (s : State) : Option Byte × State :=
  if s.now < t then
    match s.source with
    | (tick, b) :: rest =>
      if tick < t then (some b, { s with now := max s.now tick, source := rest })
      else (none, waitUntil t s)
    | [] => (none, waitUntil t s)
  else (none, s)

/-- The bytes of the source that have come by `t`, oldest first (R32, R45). A byte comes no earlier than
those before it. -/
def waiting (t : Nat) (source : List (Nat × Byte)) : List (Nat × Byte) := source.takeWhile fun x => x.1 ≤ t
/-- The bytes of the source still to come after `t`, in arrival order (R45). -/
def coming (t : Nat) (source : List (Nat × Byte)) : List (Nat × Byte) := source.dropWhile fun x => x.1 ≤ t

/-- Bytes that reach the block's side of the line while no `FRRECV` reads them wait in the byte source in
arrival order: after the bytes that have come, before those still to come (R32, R45, R212). -/
def arrive (bytes : List Byte) (s : State) : State :=
  { s with source := waiting s.now s.source ++ bytes.map (fun b => (s.now, b)) ++ coming s.now s.source }

/-- The effect of `RESET` (R230, R231): every element of R20 at its reset value, no result; the source, the
sink and what it accepted are untouched. DEDUCED (log 12): the host, which asserts it, leaves its
sequence. -/
def resetEvent (s : State) : State :=
  { s with
    seq := s.params.seqInit, ctrl := .idle
    txsegs := [], txi := 0, txj := 0, txwake := 0
    line := [], lovf := false, rxph := .hunt, exp := 0, acc := [], deadline := 0
    host := .free }

end Sys2Proof.Machine
end

