-- ==== Sys2Proof/Machine/Base64.lean ====
section
/-! DEFINITION. Base64: the standard alphabet with `=` padding (R73), the encoder (R122) and the strict
decoder (R156). -/

namespace Sys2Proof.Machine

/-- The pad character `=` (R73). -/
def padChar : Byte := 0x3D

/-- The character of a six-bit value (R73). -/
def b64Char (v : Nat) : Byte :=
  if v < 26 then BitVec.ofNat 8 (0x41 + v)
  else if v < 52 then BitVec.ofNat 8 (0x61 + (v - 26))
  else if v < 62 then BitVec.ofNat 8 (0x30 + (v - 52))
  else if v = 62 then 0x2B
  else 0x2F

/-- `val`: the value of an alphabet character, `none` for any other byte (R73). -/
def b64Val (c : Byte) : Option Nat :=
  let n := c.toNat
  if 0x41 ≤ n ∧ n ≤ 0x5A then some (n - 0x41)
  else if 0x61 ≤ n ∧ n ≤ 0x7A then some (n - 0x61 + 26)
  else if 0x30 ≤ n ∧ n ≤ 0x39 then some (n - 0x30 + 52)
  else if n = 0x2B then some 62
  else if n = 0x2F then some 63
  else none

/-- Bits `6k+5` to `6k` of a 24-bit group value. -/
def sextet (v k : Nat) : Nat := v / 2 ^ (6 * k) % 64

/-- Bits `8k+7` to `8k` of a 24-bit group value. -/
def octet (v k : Nat) : Byte := BitVec.ofNat 8 (v / 2 ^ (8 * k))

/-- `b0 * 2^16 + b1 * 2^8 + b2` (R73). -/
def groupValue (b0 b1 b2 : Byte) : Nat := b0.toNat * 2 ^ 16 + b1.toNat * 2 ^ 8 + b2.toNat

/-- `b64enc` (R73, R122). -/
def b64enc : List Byte → List Byte
  | [] => []
  | [b0] =>
    let v := groupValue b0 0 0
    [b64Char (sextet v 3), b64Char (sextet v 2), padChar, padChar]
  | [b0, b1] =>
    let v := groupValue b0 b1 0
    [b64Char (sextet v 3), b64Char (sextet v 2), b64Char (sextet v 1), padChar]
  | b0 :: b1 :: b2 :: rest =>
    let v := groupValue b0 b1 b2
    b64Char (sextet v 3) :: b64Char (sextet v 2) :: b64Char (sextet v 1) :: b64Char (sextet v 0) :: b64enc rest

/-- `v` of a decoded group (R156); `=` counts as 0. -/
def quadValue (v0 v1 v2 v3 : Nat) : Nat := v0 * 2 ^ 18 + v1 * 2 ^ 12 + v2 * 2 ^ 6 + v3

/-- One group of four characters (R156); `last` says that no group follows. -/
def b64decGroup (g0 g1 g2 g3 : Byte) (last : Bool) : Option (List Byte) := do
  let v0 ← b64Val g0
  let v1 ← b64Val g1
  if g2 = padChar ∧ g3 = padChar ∧ last then
    return [octet (quadValue v0 v1 0 0) 2]
  else if g2 ≠ padChar ∧ g3 = padChar ∧ last then
    let v2 ← b64Val g2
    let v := quadValue v0 v1 v2 0
    return [octet v 2, octet v 1]
  else
    let v2 ← b64Val g2
    let v3 ← b64Val g3
    let v := quadValue v0 v1 v2 v3
    return [octet v 2, octet v 1, octet v 0]

/-- The groups of a text, in order (R156). -/
def b64decGroups : List Byte → Option (List Byte)
  | [] => some []
  | g0 :: g1 :: g2 :: g3 :: rest => do
    let d ← b64decGroup g0 g1 g2 g3 rest.isEmpty
    let ds ← b64decGroups rest
    return d ++ ds
  | _ => none

/-- `b64dec` (R156): `some D` for `(true, D)`, `none` for `(false, [])`. -/
def b64dec (t : List Byte) : Option (List Byte) :=
  if t.length % 4 ≠ 0 then none else b64decGroups t

end Sys2Proof.Machine
end

