-- ==== Sys2Proof/Machine/Crc16.lean ====
section
/-! DEFINITION. The CRC16 checksum generator (40_crc16.md). -/

namespace Sys2Proof.Machine

/-- `CRC_POLY` (R4). -/
def crcPoly : U16 := 0x1021
/-- `CRC_INIT` (R4). -/
def crcInit : U16 := 0x0000
/-- `CRC_PAD_BYTES` (R4). -/
def crcPadBytes : Nat := 2

/-- The bit step (R100): test bit 15, shift left with the input bit ORed in, then the conditional XOR. -/
def crcbit (c : U16) (ib : Bool) : U16 :=
  let top := c.getLsbD 15
  let c2 := (c <<< 1) ||| (BitVec.ofBool ib).setWidth 16
  if top then c2 ^^^ crcPoly else c2

/-- The byte step (R101): bit 7 first. -/
def crcbyte (c : U16) (b : Byte) : U16 :=
  [7, 6, 5, 4, 3, 2, 1, 0].foldl (fun c k => crcbit c (b.getLsbD k)) c

/-- The bytes consumed (R102). -/
def crcin (buf : List Byte) (n : Nat) (pad : Bool) : List Byte :=
  buf.take n ++ zeros (crcPadBytes * pad.toNat)

/-- `crc16(buf, n, pad)` (R103). -/
def crc16 (buf : List Byte) (n : Nat) (pad : Bool) : U16 :=
  (crcin buf n pad).foldl crcbyte crcInit

/-- `CRC16 pad, DATA` (R104). -/
def execCrc16 (pad : Bool) (data : List Byte) (s : State) : Result :=
  .next (finish stOk (be16 (crc16 data data.length pad)) s)

end Sys2Proof.Machine
end

