-- ==== Sys2Proof/Machine/FramerSend.lean ====
section
/-! DEFINITION. Framer send (41_framer_send.md): the frame, its text and lines, `FRSEND` and the TX engine's
step. -/

namespace Sys2Proof.Machine

/-- `SEG_MAX_CHARS` (R4). -/
def segMaxChars : Nat := 124

/-- `ceil(a / b)` (R10). -/
def ceilDiv (a b : Nat) : Nat := (a + (b - 1)) / b

/-- `frame(P)` (R72, R125). -/
def frameBytes (p : List Byte) : List Byte :=
  be16Nat (p.length + 2) ++ p ++ be16 (crc16 p p.length true)

/-- `split124(E)` (R127): piece `k` is characters `124k` to `124k + 123`. -/
def split124 (e : List Byte) : List (List Byte) :=
  (List.range (ceilDiv e.length segMaxChars)).map fun k => (e.drop (segMaxChars * k)).take segMaxChars

/-- A start segment line (R74). -/
def startLine (t : List Byte) : List Byte := startMarker ++ t ++ [lf]
/-- A continuation segment line (R74). -/
def contLine (t : List Byte) : List Byte := contMarker ++ t ++ [lf]

/-- `seglines` (R128). -/
def seglines : List (List Byte) → List (List Byte)
  | [] => []
  | t0 :: ts => startLine t0 :: ts.map contLine

/-- The segment lines of a frame's bytes (R126 to R128). -/
def frameLines (f : List Byte) : List (List Byte) := seglines (split124 (b64enc f))

/-- `FRSEND P` (R120), up to its first UART access: the length check, then the TX state. Later steps are
`txStep`. -/
def startFrsend (p : List Byte) (s : State) : State :=
  if s.params.txMaxPayload < p.length then finish stTooLong [] s
  else { s with
    ctrl := .busy .frsend
    txsegs := frameLines (frameBytes p), txi := 0, txj := 0, txwake := 0 }

/-- `FRSEND P` (R120). -/
def execFrsend (p : List Byte) (s : State) : Result := .next (startFrsend p s)

/-- The updates that follow an accepted byte of a line of `len` bytes (R120, R129, R131). -/
def txAccepted (len : Nat) (s : State) : State :=
  if s.txj + 1 = len then
    let s' := { s with txi := s.txi + 1, txj := 0, txwake := s.now + s.params.contDelay }
    if s'.txi < s'.txsegs.length then s' else finish stOk [] s'
  else { s with txj := s.txj + 1 }

/-- The wait before the first byte of a continuation line (R129). -/
def txDelay (s : State) : State :=
  if 0 < s.txi ∧ s.txj = 0 then waitUntil s.txwake s else s

/-- One step of the TX engine: one `UartWrite` and the updates up to the next (R10, R120, R130). A held
write leaves the engine where it is. DESIGN CHOICE (log 16): with `TXJ` outside its line, which no run
reaches, nothing happens. -/
def txStep (s : State) : Result :=
  match s.txsegs[s.txi]? with
  | none => .next (finish stOk [] s)
  | some l =>
    match l[s.txj]? with
    | none => .next s
    | some b =>
      match uartWrite b (txDelay s) with
      | (.accept, s') => .next (txAccepted l.length s')
      | (.ioerr, s')  => .next (finish stIoError [] s')
      | (.hold, s')   => .next s'

end Sys2Proof.Machine
end

