-- ==== Sys2Proof/Machine/FramerReceive.lean ====
section
/-! DEFINITION. Framer receive (42_framer_receive.md): `FRRECV`, and the meaning of a segment line and of a
frame for the RX engine. The engine's byte step is in Engine.lean. -/

namespace Sys2Proof.Machine

/-- `FRRECV` (R150, R151), up to its first read. -/
def startFrrecv (s : State) : State :=
  { s with
    ctrl := .busy .frrecv
    line := [], lovf := false, rxph := .hunt, exp := 0, acc := []
    deadline := s.now + s.params.rxTimeout }

/-- `FRRECV` (R150). -/
def execFrrecv (s : State) : Result := .next (startFrrecv s)

/-- The frame in progress is abandoned (R164, R165). -/
def abandonFrame (s : State) : State := { s with rxph := .hunt, exp := 0, acc := [] }

/-- Completion and CRC check of the frame in `ACC` (R165, R166, R209). -/
def completeFrame (s : State) : State :=
  let r := crc16 s.acc s.exp.toNat true
  if r ≠ 0 ∧ s.params.crcPolicy = .reject then abandonFrame s
  else finish (frameStatus r) (be16 (s.exp - 2) ++ be16 r ++ s.acc.take (s.exp.toNat - 2)) s

/-- Append a segment's data; overrun, completion, or neither (R164, R165). -/
def appendData (x : List Byte) (s : State) : State :=
  if s.exp.toNat < s.acc.length + x.length then abandonFrame s
  else
    let s' := { s with acc := s.acc ++ x }
    if s'.acc.length = s'.exp.toNat then completeFrame s' else s'

/-- A start segment's decoded bytes (R159, R160, R162); `s` itself where the line is discarded (R161). -/
def takeStart (d : List Byte) (s : State) : State :=
  if d.length < 2 then s
  else
    let t := rd16 d 0
    if t.toNat < 2 ∨ s.params.rxCap < t.toNat then s
    else appendData (d.drop 2) { s with rxph := .accum, exp := t, acc := [] }

/-- A continuation segment's decoded bytes (R163). -/
def takeCont (d : List Byte) (s : State) : State :=
  match s.rxph with
  | .hunt  => s
  | .accum => appendData d s

/-- The decoded text of a segment, `none` where the line is discarded: bad base64 or an empty decode
(R158). -/
def segmentData (t : List Byte) : Option (List Byte) :=
  match b64dec t with
  | none => none
  | some d => if d.length = 0 then none else some d

/-- A segment line's effect on the RX engine (R158 to R166). -/
def takeSegment (take : List Byte → State → State) (t : List Byte) (s : State) : State :=
  match segmentData t with
  | none => s
  | some d => take d s

/-- `SEG_START` (R74, R157 to R166): the RX engine takes the line while `FRRECV` runs; otherwise its bytes
have come and wait in the byte source in arrival order (R32, R45, R241; log 8). -/
def execSegStart (t : List Byte) (s : State) : Result :=
  match s.ctrl with
  | .busy .frrecv => .next (takeSegment takeStart t s)
  | .busy .frsend => .next (arrive (startLine t) s)
  | .idle         => .next (arrive (startLine t) s)

/-- `SEG_CONT` (R74, R157, R158, R163 to R166); as `SEG_START` otherwise (log 8). -/
def execSegCont (t : List Byte) (s : State) : Result :=
  match s.ctrl with
  | .busy .frrecv => .next (takeSegment takeCont t s)
  | .busy .frsend => .next (arrive (contLine t) s)
  | .idle         => .next (arrive (contLine t) s)

/-- The RX engine holds a whole frame: payload and trailer accumulated to the expected total (R162, R165). -/
def loadFrame (p : List Byte) (trailer : U16) (s : State) : State :=
  { s with rxph := .accum, exp := BitVec.ofNat 16 (p.length + 2), acc := p ++ be16 trailer }

/-- `FRAME` (R72, R165, R166): while `FRRECV` runs and the frame fits the accumulation buffer, the frame is
complete and checked; a frame that does not fit is discarded at its start segment (R160). Otherwise its
segment lines wait in the byte source (R32, R74, R241; log 9). -/
def execFrame (p : List Byte) (trailer : U16) (s : State) : Result :=
  match s.ctrl with
  | .busy .frrecv =>
    if s.params.rxCap < p.length + 2 then .next s else .next (completeFrame (loadFrame p trailer s))
  | .busy .frsend => .next (arrive (frameLines (encode (.frame p trailer))).flatten s)
  | .idle         => .next (arrive (frameLines (encode (.frame p trailer))).flatten s)

end Sys2Proof.Machine
end

