-- ==== Sys2Proof/Machine/NmpHeader.lean ====
section
/-! DEFINITION. The NMP header builder and parser (43_nmp_header.md), and the four header kinds of the opcode
table. -/

namespace Sys2Proof.Machine

/-- `NMP_FLAGS_VALUE` (R4). -/
def nmpFlagsValue : Byte := 0x00
/-- `NMP_HDR_BYTES` (R4). -/
def nmpHdrBytes : Nat := 8

/-- `build(op, group, id, blen, s)` (R180). -/
def build (op : Byte) (group : U16) (id : Byte) (blen : U16) (sq : Byte) : List Byte :=
  hdr op nmpFlagsValue blen group sq id

/-- The builder (R181, R183): the header carries `SEQ`, which then increments mod 256. -/
def runBuilder (op : Byte) (group : U16) (id : Byte) (blen : U16) (s : State) : State :=
  finish stOk (build op group id blen s.seq) { s with seq := s.seq + 1 }

/-- The parser (R185 to R189). -/
def runParser (eop : Byte) (egroup : U16) (eid : Byte) (r : List Byte) (s : State) : State :=
  if r.length < nmpHdrBytes then finish stHdrShort [] s
  else finish (matchStatus (hdrOp r) (hdrGroup r) (hdrId r) eop egroup eid)
    (slice r 0 8 ++ be16Nat (r.length - 8) ++ r.drop 8) s

/-- `HDRBLD op, group, id, blen` (R181). -/
def execHdrbld (op : Byte) (group : U16) (id : Byte) (blen : U16) (s : State) : Result :=
  .next (runBuilder op group id blen s)

/-- `HDRPRS eop, egroup, eid, R` (R185). -/
def execHdrprs (eop : Byte) (egroup : U16) (eid : Byte) (r : List Byte) (s : State) : Result :=
  .next (runParser eop egroup eid r s)

/-- `NMP_READ` (ping request): the builder run for this kind (R180, R190). The header's `seq` byte is the
builder's output, not its operand (R183; log 10). -/
def execNmpRead (len : U16) (s : State) : Result := .next (runBuilder 0x00 0x0000 0x01 len s)

/-- `NMP_WRITE` (image upload request): the builder run for this kind (R180, R190; log 10). -/
def execNmpWrite (len : U16) (s : State) : Result := .next (runBuilder 0x02 0x0001 0x01 len s)

/-- `NMP_READ_RSP` (ping response): the header given to the parser with the values R190 expects (R188;
log 11). -/
def execNmpReadRsp (flags : Byte) (len : U16) (sq : Byte) (s : State) : Result :=
  .next (runParser 0x01 0x0000 0x01 (encode (.nmpReadRsp flags len sq)) s)

/-- `NMP_WRITE_RSP` (image upload response): as `NMP_READ_RSP`, with that exchange's values (R188, R190;
log 11). -/
def execNmpWriteRsp (flags : Byte) (len : U16) (sq : Byte) (s : State) : Result :=
  .next (runParser 0x03 0x0001 0x01 (encode (.nmpWriteRsp flags len sq)) s)

end Sys2Proof.Machine
end

