-- ==== Sys2Proof/Machine/HostSequences.lean ====
section
/-! DEFINITION. The host's two fixed sequences of commands, `SENDREQ` (R68) and `PING` (R69; log 12). -/

namespace Sys2Proof.Machine

/-- `SENDREQ H, BODY`, its first command: `FRSEND (H ++ BODY)` (R68). -/
def execSendreq (h body : List Byte) (s : State) : Result :=
  .next (startFrsend (h ++ body) { s with host := .sending false })

/-- `PING`, its first command: `HDRBLD 0x00, 0x0000, 0x01, 0` (R69). -/
def execPing (s : State) : Result :=
  .next (runBuilder 0x00 0x0000 0x01 0 { s with host := .building })

/-- A sequence returns, and the host is free. -/
def hostReturn (v : HostReturn) (s : State) : State :=
  { s with host := .free, returns := s.returns ++ [v] }

/-- `SENDREQ` returns `none`; within `PING` that is a failure (R68, R69). -/
def hostNone (ping : Bool) (s : State) : State :=
  hostReturn (if ping then .ping false else .sendreq none) s

/-- The host's next move when the block is idle and `r` is the result it took last (R68, R69). -/
def hostNext (r : List Byte) (s : State) : State :=
  match s.host with
  | .free => s
  | .building => startFrsend (resHeader r ++ []) { s with host := .sending true }
  | .sending ping =>
    if resStatus r ≠ stOk then hostNone ping s else startFrrecv { s with host := .receiving ping }
  | .receiving ping =>
    if resStatus r = stNoData then hostNone ping s
    else if ping then runParser 0x01 0x0000 0x01 (resPayload r) { s with host := .parsing }
    else hostReturn (.sendreq (some (resPayload r))) s
  | .parsing => hostReturn (.ping (resStatus r = stOk)) s

/-- One step of the host while the block is idle; a free host with nothing to do leaves everything as it is
(R215). -/
def hostStep (s : State) : Result := .next (hostNext s.lastResult s)

end Sys2Proof.Machine
end

