-- ==== Sys2Proof/Machine/Reserved.lean ====
section
/-! DEFINITION. The reserved command codes and every other descriptor that is not well-formed (R77, R201). -/

namespace Sys2Proof.Machine

/-- `(reserved)` 0x00 (R77, R201). -/
def execReserved00 (s : State) : Result := .next (finishIllegal s)

/-- `(reserved)` 0x06 to 0xFF (R77, R201). -/
def execReservedHi (s : State) : Result := .next (finishIllegal s)

/-- A descriptor the decoder refuses (R60, R201). -/
def execIllegal (s : State) : Result := .next (finishIllegal s)

end Sys2Proof.Machine
end

