-- ==== Sys2Proof/Machine/Dispatch.lean ====
section
/-! DEFINITION. `exec`: one meaning per instruction. -/

namespace Sys2Proof.Machine

def exec (i : Instr) (s : State) : Host.Outcome State Fault Refusal :=
  match i with
  | .crc16 pad data => Sys2Proof.Machine.execCrc16 pad data s
  | .frsend payload => Sys2Proof.Machine.execFrsend payload s
  | .frrecv => Sys2Proof.Machine.execFrrecv s
  | .hdrbld op group id blen => Sys2Proof.Machine.execHdrbld op group id blen s
  | .hdrprs eop egroup eid resp => Sys2Proof.Machine.execHdrprs eop egroup eid resp s
  | .reserved00 _ => Sys2Proof.Machine.execReserved00 s
  | .reservedHi _ _ => Sys2Proof.Machine.execReservedHi s
  | .segStart text => Sys2Proof.Machine.execSegStart text s
  | .segCont text => Sys2Proof.Machine.execSegCont text s
  | .frame payload trailer => Sys2Proof.Machine.execFrame payload trailer s
  | .nmpRead len _ => Sys2Proof.Machine.execNmpRead len s
  | .nmpReadRsp flags len seq => Sys2Proof.Machine.execNmpReadRsp flags len seq s
  | .nmpWrite len _ => Sys2Proof.Machine.execNmpWrite len s
  | .nmpWriteRsp flags len seq => Sys2Proof.Machine.execNmpWriteRsp flags len seq s
  | .sendreq header body => Sys2Proof.Machine.execSendreq header body s
  | .ping => Sys2Proof.Machine.execPing s

end Sys2Proof.Machine
end

