-- ==== Sys2Proof/Machine/Engine.lean ====
section
/-! DEFINITION. The RX engine's byte step, the acceptance of a descriptor, and the order in which the agents
move: everything `step` calls. -/

namespace Sys2Proof.Machine

/-- One leading `CR` is removed (R155). -/
def stripCr : List Byte → List Byte
  | [] => []
  | b :: rest => if b = cr then rest else b :: rest

/-- A complete line (R154 to R157): an overflowed line is discarded, a leading `CR` stripped, and a line
that begins with a marker is that segment; any other line is discarded (R161). -/
def takeLine (l : List Byte) (overflowed : Bool) (s : State) : Result :=
  if overflowed then .next s
  else
    match decodeLine (stripCr l) with
    | .ok i    => exec i s
    | .error _ => .next s

/-- A byte other than `LF` (R153). -/
def addToLine (b : Byte) (s : State) : State :=
  if s.line.length < s.params.lineCap then { s with line := s.line ++ [b] } else { s with lovf := true }

/-- One step of the RX engine: one `UartRead` and the updates up to the next (R10, R150, R152, R167). -/
def rxStep (s : State) : Result :=
  match uartRead s.deadline s with
  | (none, s') => .next (finish stNoData [] s')
  | (some b, s') =>
    if b = lf then takeLine s'.line s'.lovf { s' with line := [], lovf := false }
    else .next (addToLine b s')

/-- The running engine moves; with none running, the host's sequence does. -/
def engineStep (s : State) : Result :=
  match s.ctrl with
  | .busy .frsend => txStep s
  | .busy .frrecv => rxStep s
  | .idle         => hostStep s

/-- A descriptor is taken: it runs, or ends with `ILLEGAL_CMD` (R60, R201). -/
def runDescriptor (d : List Byte) (s : State) : Result :=
  match decode d with
  | .ok i    => exec i s
  | .error _ => execIllegal s

/-- An instruction given by name. DESIGN CHOICE (log 21): one with no words ends as a descriptor that is not
well-formed does. -/
def runNamed (i : Instr) (s : State) : Result :=
  if i.wf then exec i s else execIllegal s

/-- The block takes a descriptor only when `CTRL = IDLE` (R26), and the host presents one of its own only
when it is in no sequence (R68, R69). -/
abbrev State.accepting (s : State) : Prop := s.ctrl = .idle ∧ s.host = .free

/-- One step of the whole: the head of the agenda, or the engine where the agenda is empty or the block
cannot take what the host presents, which is then held (R235). -/
def systemStep (s : State) : Result :=
  match s.agenda with
  | [] => engineStep s
  | .tick n :: rest => .next { s with now := s.now + n, agenda := rest }
  | .proceed :: rest => engineStep { s with agenda := rest }
  | .reset :: rest => .next (resetEvent { s with agenda := rest })
  | .command d :: rest => if s.accepting then runDescriptor d { s with agenda := rest } else engineStep s
  | .perform i :: rest => if s.accepting then runNamed i { s with agenda := rest } else engineStep s

/-- The state in which the next step runs the instruction that `bytes` spell in `space`: a descriptor is
presented to an idle block and a free host; a header is presented by name; a segment line has been read by
a running `FRRECV` up to its `LF`, which is the next byte; a frame is presented by name. -/
def placeWords (space : Space) (bytes : List Byte) (s : State) : State :=
  match space with
  | .command => { s with ctrl := .idle, host := .free, agenda := .command bytes :: s.agenda }
  | .wire =>
    { s with
      ctrl := .busy .frrecv
      line := bytes.dropLast, lovf := false
      deadline := max s.deadline (s.now + 1)
      source := (s.now, lf) :: s.source
      agenda := .proceed :: s.agenda }
  | .frame | .header =>
    match decodeIn space bytes with
    | .ok i    => { s with ctrl := .idle, host := .free, agenda := .perform i :: s.agenda }
    | .error _ => s

end Sys2Proof.Machine
end

