-- ==== Sys2Proof/Machine/Step.lean ====
section
/-! DEFINITION. `step`, one step of the machine, and where an instruction's words are put so that the next
step runs it. -/

namespace Sys2Proof.Machine

/-- One step (R10, R47). -/
def step (s : State) : Host.Outcome State Fault Refusal := systemStep s

/-- The next step of the result runs the instruction whose bits, as the opcode table numbers them, are `w`
(logs 13 and 14). -/
def State.withFetchWord (s : State) (nbits w : Nat) : State :=
  placeWords (tableWord nbits w).1 (tableWord nbits w).2 s

end Sys2Proof.Machine
end

