-- ==== Sys2Proof/Safety.lean ====
section
/-! DEFINITION. What claims are made of: the invariant of a run (R29, R30), which descriptors are malformed
(R201), which received lines are discarded in every state (R154, R157 to R160), and the bits of a byte
string (R105). -/

namespace Sys2Proof.Machine

/-- The block's own invariant. The first lines are R5 and R29 and the capacities of R30; the last says that
while `FRSEND` runs there is a byte to write (R27). -/
structure State.Inv (s : State) : Prop where
  params_wf : s.params.wf
  line_cap  : s.line.length ≤ s.params.lineCap
  acc_cap   : s.acc.length ≤ s.params.rxCap
  rx_frame  : s.ctrl = .busy .frrecv → s.rxph = .accum →
    2 ≤ s.exp.toNat ∧ s.exp.toNat ≤ s.params.rxCap ∧ s.acc.length < s.exp.toNat
  tx_lines  : ∀ l ∈ s.txsegs, 0 < l.length ∧ l.length ≤ 127
  tx_cap    : s.txsegs.flatten.length ≤
    4 * ceilDiv (s.params.txMaxPayload + 4) 3 + 3 * s.txsegs.length
  tx_byte   : s.ctrl = .busy .frsend →
    s.txi < s.txsegs.length ∧ s.txj < (s.txsegs.getD s.txi []).length

/-- A descriptor that is not well-formed (R60, R77, R201): empty, of a reserved `OPC`, a `CRC16` descriptor
with a reserved bit of `PB` set, or of another length than its layout's. -/
abbrev Malformed (d : List Byte) : Prop :=
  d = [] ∨ byteAt d 0 = 0x00 ∨ 0x06 ≤ (byteAt d 0).toNat ∨
  (byteAt d 0 = 0x01 ∧ byteAt d 1 &&& 0xFE ≠ 0) ∨ d.length ≠ descriptorLength d

/-- A line without its one leading `CR` (R155). -/
def lineBody (l : List Byte) : List Byte := if l.head? = some 0x0D then l.tail else l

/-- A line the receiver discards whatever its state: no marker (R157), bad base64 or an empty decode (R158),
a short start (R159), or a length prefix out of range (R160). -/
def NoiseLine (p : Params) (l : List Byte) : Prop :=
  let m := lineBody l
  m.length < 2 ∨ (m.take 2 ≠ [0x06, 0x09] ∧ m.take 2 ≠ [0x04, 0x14]) ∨
  b64dec (m.drop 2) = none ∨ b64dec (m.drop 2) = some [] ∨
  (m.take 2 = [0x06, 0x09] ∧ ∃ d, b64dec (m.drop 2) = some d ∧
    (d.length < 2 ∨ (rd16 d 0).toNat < 2 ∨ p.rxCap < (rd16 d 0).toNat))

/-- The bits of a byte string in the order the CRC consumes them (R42, R101). -/
def bitsOf (b : List Byte) : List Bool :=
  b.flatMap fun x => [7, 6, 5, 4, 3, 2, 1, 0].map fun k => x.getLsbD k

/-- Bytewise `xor` of two strings of one length (R106). -/
def xorBytes (a b : List Byte) : List Byte := List.zipWith (· ^^^ ·) a b

/-- Blocks of noise lines and sent lines in turn, as bytes on the line: before each line, the lines of its
block, each with its `LF` (R170). -/
def interleaved : List (List (List Byte)) → List (List Byte) → List Byte
  | noise :: ns, l :: ls => (noise.map (· ++ [lf])).flatten ++ l ++ interleaved ns ls
  | _, _ => []

end Sys2Proof.Machine
end

