-- ==== Sys2Proof/Certificates/Slice0/Obligations.lean ====
section
/-! DEFINITION. The statements for the provers, from the numbered rules of spec/. Next states are written out
field by field, so that each says what changes and what does not. -/

open Sys2Proof Sys2Proof.Machine

/-! ## Encodings -/

/-- Words written out from R62 to R67, R72, R74 and R75 decode to the instructions they stand for. -/
def Obligations.SpecWordsDecode : Prop :=
  decode [0x01, 0x01, 0x00, 0x02, 0xAA, 0xBB] = .ok (.crc16 true [0xAA, 0xBB]) ∧
  decode [0x02, 0x00, 0x01, 0x7F] = .ok (.frsend [0x7F]) ∧
  decode [0x03] = .ok .frrecv ∧
  decode [0x04, 0x02, 0x00, 0x01, 0x05, 0x00, 0xD0] = .ok (.hdrbld 0x02 0x0001 0x05 0x00D0) ∧
  decode [0x05, 0x03, 0x12, 0x34, 0x01, 0x00, 0x01, 0x99] = .ok (.hdrprs 0x03 0x1234 0x01 [0x99]) ∧
  decode [0x00, 0x11] = .ok (.reserved00 [0x11]) ∧
  decode [0xFF, 0x01, 0x02] = .ok (.reservedHi 0xFF [0x01, 0x02]) ∧
  decodeWire [0x06, 0x09, 0x41, 0x41, 0x41, 0x3D, 0x0A] = .ok (.segStart [0x41, 0x41, 0x41, 0x3D]) ∧
  decodeWire [0x04, 0x14, 0x41, 0x0A] = .ok (.segCont [0x41]) ∧
  decodeFrame [0x00, 0x03, 0xFF, 0x1E, 0xF0] = .ok (.frame [0xFF] 0x1EF0) ∧
  decodeHeader [0x01, 0x7F, 0x12, 0x34, 0x00, 0x00, 0x99, 0x01] = .ok (.nmpReadRsp 0x7F 0x1234 0x99)

/-- Decoding the words of a well-formed instruction, in the space they belong to, gives it back. -/
def Obligations.DecodeOfEncode : Prop :=
  ∀ (i : Instr) (sp : Space), i.wf = true → i.space = some sp → decodeIn sp (encode i) = .ok i

/-- Bytes that decode to an instruction are exactly that instruction's words, and it is well-formed. -/
def Obligations.EncodeOfDecode : Prop :=
  ∀ (sp : Space) (w : List Byte) (i : Instr), decodeIn sp w = .ok i →
    encode i = w ∧ i.wf = true ∧ i.space = some sp

/-- A descriptor decodes to one of the five commands exactly when it is not malformed (R60, R62, R77). -/
def Obligations.CommandsAreTheWellFormed : Prop :=
  ∀ d : List Byte, (¬ Malformed d ↔
    (∃ pad data, decode d = .ok (.crc16 pad data)) ∨ (∃ p, decode d = .ok (.frsend p)) ∨
    decode d = .ok .frrecv ∨ (∃ op g id n, decode d = .ok (.hdrbld op g id n)) ∨
    ∃ op g id r, decode d = .ok (.hdrprs op g id r))

/-! ## One step -/

/-- A descriptor that an idle block takes from a free host is run by the next step (R26, R60); so is the
segment that the line in `LINE` spells when its `LF` is read (R154, R155, R157). Model's choice: that any
instruction can be presented by name (the introduction of 30_encoding.md lets a model spell commands so; logs
10 to 12 and 21 for the other rows), and, in the last clause, the exact time at which the byte is read
(logs 4 and 5). -/
def Obligations.StepRunsTheDecoded : Prop :=
  (∀ (s : State) (d : List Byte) (i : Instr) (rest : List Input), s.ctrl = .idle → s.host = .free →
    s.agenda = .command d :: rest → decode d = .ok i → step s = exec i { s with agenda := rest }) ∧
  (∀ (s : State) (i : Instr) (rest : List Input), s.ctrl = .idle → s.host = .free →
    s.agenda = .perform i :: rest → i.wf = true → step s = exec i { s with agenda := rest }) ∧
  (∀ (s : State) (i : Instr) (tick : Nat) (rest : List (Nat × Byte)), s.ctrl = .busy .frrecv →
    s.agenda = [] → s.source = (tick, 0x0A) :: rest → s.now < s.deadline → tick < s.deadline →
    s.lovf = false → decodeWire (lineBody s.line ++ [0x0A]) = .ok i →
    step s = exec i { s with now := max s.now tick, source := rest, line := [], lovf := false })

/-- Whose turn it is: with nothing on the agenda, or the host told to wait, or holding a descriptor the block
cannot take, the running engine (or the host's own sequence) moves; ticks only advance `Now()`; and an idle
block with a free host and nothing presented to it stays exactly as it is. R26 and R235 say that a busy block
holds the descriptor, and R215 that only a descriptor or `RESET` moves an idle one. Model's choice: that the
agenda's empty list, `proceed` and ticks decide who moves (log 3), and that a host in a sequence of its own
presents nothing else (log 12). -/
def Obligations.WhoMoves : Prop :=
  ∀ (s : State) (rest : List Input),
    (s.agenda = [] → step s = engineStep s) ∧
    (s.agenda = .proceed :: rest → step s = engineStep { s with agenda := rest }) ∧
    (∀ d, s.agenda = .command d :: rest → (s.ctrl ≠ .idle ∨ s.host ≠ .free) → step s = engineStep s) ∧
    (∀ i, s.agenda = .perform i :: rest → (s.ctrl ≠ .idle ∨ s.host ≠ .free) → step s = engineStep s) ∧
    (∀ n, s.agenda = .tick n :: rest → step s = .next { s with now := s.now + n, agenda := rest }) ∧
    (s.agenda = [] → s.ctrl = .idle → s.host = .free → step s = .next s)

/-- R235: a descriptor presented while `CTRL = BUSY` is held and changes nothing: the step is the engine's own
step with nothing presented, whatever the descriptor is, and leaves the descriptor the host's next move. That
step leaves the host's own sequence and `SEQ` as they were, and the command runs on or ends with a result. -/
def Obligations.HeldDescriptorStays : Prop :=
  ∀ (s : State) (d : List Byte) (rest : List Input), s.ctrl ≠ .idle → s.agenda = .command d :: rest →
    ∃ u, engineStep { s with agenda := [] } = .next u ∧
      step s = .next { u with agenda := .command d :: rest } ∧ u.host = s.host ∧ u.seq = s.seq ∧
      (u.ctrl = s.ctrl ∨ (u.ctrl = .idle ∧ ∃ r, u.results = s.results ++ [r]))

/-- R201: a malformed descriptor ends at once with the single byte 07 and no other effect. -/
def Obligations.IllegalDescriptorEnds : Prop :=
  ∀ (s : State) (d : List Byte) (rest : List Input), s.ctrl = .idle → s.host = .free →
    s.agenda = .command d :: rest → Malformed d →
    step s = .next { s with agenda := rest, ctrl := .idle, results := s.results ++ [[0x07]] }

/-- The reserved rows of the table end with `ILLEGAL_CMD` and no other effect (R77, R201). -/
def Obligations.ReservedCodesEnd : Prop :=
  ∀ (s : State) (opc : Byte) (rest : List Byte),
    exec (.reserved00 rest) s = .next { s with ctrl := .idle, results := s.results ++ [[0x07]] } ∧
    exec (.reservedHi opc rest) s = .next { s with ctrl := .idle, results := s.results ++ [[0x07]] }

/-- R205: no condition traps: every state has a next state, and so has every instruction in every state. -/
def Obligations.NothingTraps : Prop :=
  (∀ s : State, ∃ t, step s = .next t) ∧ ∀ (i : Instr) (s : State), ∃ t, exec i s = .next t

/-- R200, R206: a step delivers at most one result; its status is a code of R200, and the block is then
idle. -/
def Obligations.ResultsHaveStatusCodes : Prop :=
  ∀ s t : State, step s = .next t → t.results = s.results ∨
    ∃ (c : Byte) (data : List Byte), t.results = s.results ++ [c :: data] ∧ c.toNat ≤ 7 ∧ t.ctrl = .idle

/-- R25: no step changes `CRC_POLICY`, nor any other parameter. -/
def Obligations.ParametersAreStatic : Prop :=
  ∀ s t : State, step s = .next t → t.params = s.params

/-- R46, R47: a step writes at most one byte to the sink or takes at most one from the source, and never
both; an accepted byte is never taken back. Bytes that reach the source do so in arrival order (R45): after
those that have come, before those still to come (that a step can bring bytes is the model's reading of the
wire rows, logs 8 and 9). -/
def Obligations.OneUartAccess : Prop :=
  ∀ s t : State, step s = .next t →
    (t.sent = s.sent ∧ (t.source = s.source ∨ (∃ x, s.source = x :: t.source) ∨
      ∃ come more later, s.source = come ++ later ∧ t.source = come ++ more ++ later ∧
        (∀ x ∈ come, x.1 ≤ s.now) ∧ (∀ x ∈ more, x.1 = s.now) ∧ ∀ x, later.head? = some x → s.now < x.1)) ∨
    (t.source = s.source ∧ ∃ b, t.sent = s.sent ++ [b])

/-- R9: `Now()` never decreases. -/
def Obligations.TimeNeverDecreases : Prop :=
  ∀ s t : State, step s = .next t → s.now ≤ t.now

/-! ## Reset and the invariant -/

/-- R230: `RESET` at any time sets every element of R20 to its reset value, delivers no result, and touches
neither the byte source nor the sink, whose coming answers past the plan's end depend on `draws` alone. (The
host phase after it is the model's choice, log 12, and no part of this statement.) -/
def Obligations.ResetInput : Prop :=
  ∀ (s : State) (rest : List Input), s.agenda = .reset :: rest → ∃ t, step s = .next t ∧
    t.seq = s.params.seqInit ∧ t.ctrl = .idle ∧ t.txsegs = [] ∧ t.txi = 0 ∧ t.txj = 0 ∧ t.txwake = 0 ∧
    t.line = [] ∧ t.lovf = false ∧ t.rxph = .hunt ∧ t.exp = 0 ∧ t.acc = [] ∧ t.deadline = 0 ∧
    t.source = s.source ∧ t.sinkPlan = s.sinkPlan ∧ t.draws = s.draws ∧ t.sent = s.sent ∧
    t.results = s.results ∧ t.returns = s.returns ∧ t.params = s.params ∧ t.now = s.now ∧ t.agenda = rest

/-- R232: at power-on every element of R20 is as `RESET` leaves it, for every choice of the parameters. -/
def Obligations.PowerOnIsReset : Prop :=
  ∀ (s t : State) (rest : List Input), s.agenda = .reset :: rest → step s = .next t →
    let p := State.resetWith s.params
    p.seq = s.params.seqInit ∧ t.seq = p.seq ∧ t.ctrl = p.ctrl ∧ t.txsegs = p.txsegs ∧ t.txi = p.txi ∧
    t.txj = p.txj ∧ t.txwake = p.txwake ∧ t.line = p.line ∧ t.lovf = p.lovf ∧ t.rxph = p.rxph ∧
    t.exp = p.exp ∧ t.acc = p.acc ∧ t.deadline = p.deadline

/-- The invariant holds at power-on, for every choice of the parameters in R5's ranges, and so at
`State.reset`, whose parameters are the model's choice (log 1). -/
def Obligations.InvAtReset : Prop :=
  (∀ p : Params, p.wf → (State.resetWith p).Inv) ∧ State.reset.Inv

/-- R29, with the capacities of R30: every step keeps the invariant. -/
def Obligations.StepKeepsInv : Prop :=
  ∀ s t : State, s.Inv → step s = .next t → t.Inv

/-! ## CRC16 -/

/-- R104: `CRC16` returns the checksum of its data, in one step, and changes nothing else. -/
def Obligations.Crc16Answers : Prop :=
  ∀ (pad : Bool) (data : List Byte) (s : State), exec (.crc16 pad data) s = .next { s with
    ctrl := .idle
    results := s.results ++ [0x00 :: be16
      ((data ++ if pad then [0x00, 0x00] else []).foldl
        (fun (c : U16) (b : Byte) => [7, 6, 5, 4, 3, 2, 1, 0].foldl (fun c k => crcbit c (b.getLsbD k)) c)
        0x0000)] }

/-- R100: the bit step is test, shift with OR, conditional XOR. -/
def Obligations.CrcBitStep : Prop :=
  ∀ (c : U16) (ib : Bool), (crcbit c ib).toNat =
    (2 * c.toNat % 65536 + ib.toNat) ^^^ (if 32768 ≤ c.toNat then 0x1021 else 0)

/-- R105: the trailer a frame carries is the padded checksum of its payload alone, and payload and trailer
have residual 0 with the pad and without it. -/
def Obligations.CrcResidualIsZero : Prop :=
  ∀ b : List Byte,
    frameBytes b = be16Nat (b.length + 2) ++ b ++ be16 (crc16 b b.length true) ∧
    crc16 (b ++ be16 (crc16 b b.length true)) (b.length + 2) true = 0x0000 ∧
    crc16 (b ++ be16 (crc16 b b.length true)) (b.length + 2) false = 0x0000

/-- R106, laws 2 to 6: zero input, leading zeros, short input, linearity, and the pad as two zero bytes. -/
def Obligations.CrcLaws : Prop :=
  (∀ (n : Nat) (pad : Bool), crc16 (zeros n) n pad = 0x0000) ∧
  (∀ (b : List Byte) (k n : Nat) (pad : Bool), n ≤ b.length →
    crc16 (zeros k ++ b) (k + n) pad = crc16 b n pad) ∧
  (∀ x y : Byte, crc16 [x] 1 false = x.setWidth 16 ∧ crc16 [x, y] 2 false = rd16 [x, y] 0) ∧
  (∀ (a b : List Byte) (pad : Bool), a.length = b.length →
    crc16 (xorBytes a b) a.length pad = crc16 a a.length pad ^^^ crc16 b b.length pad) ∧
  (∀ (b : List Byte) (n : Nat), n ≤ b.length →
    crc16 b n true = crc16 (b.take n ++ [0x00, 0x00]) (n + 2) false)

/-- R106, law 7: a change to an intact payload and trailer whose wrong bits all lie within 16 consecutive
bits, a single wrong bit among them, gives a nonzero residual. -/
def Obligations.CrcDetectsBursts : Prop :=
  ∀ (f e : List Byte) (before after : Nat) (burst : List Bool), e.length = f.length →
    crc16 f f.length true = 0x0000 →
    bitsOf e = List.replicate before false ++ burst ++ List.replicate after false →
    burst.length ≤ 16 → true ∈ burst →
    crc16 (xorBytes f e) f.length true ≠ 0x0000

/-! ## NMP headers -/

/-- R180: the builder's header, byte by byte; `HDRBLD` returns it with `SEQ` and increments `SEQ`, and
changes nothing else. -/
def Obligations.HdrbldBuilds : Prop :=
  ∀ (op : Byte) (group : U16) (id : Byte) (blen : U16) (s : State),
    exec (.hdrbld op group id blen) s = .next { s with
      ctrl := .idle
      seq := BitVec.ofNat 8 ((s.seq.toNat + 1) % 256)
      results := s.results ++ [[0x00, op, 0x00, blen.extractLsb' 8 8, blen.extractLsb' 0 8,
        group.extractLsb' 8 8, group.extractLsb' 0 8, s.seq, id]] }

/-- R183: `SEQ` changes only by `RESET`, or by one, in a step that delivers a built header carrying the old
value. -/
def Obligations.OnlyTheBuilderMovesSeq : Prop :=
  ∀ s t : State, step s = .next t → t.seq = s.seq ∨
    (∃ rest, s.agenda = .reset :: rest ∧ t.seq = s.params.seqInit) ∨
    (s.ctrl = .idle ∧ t.seq = s.seq + 1 ∧ ∃ op group id blen,
      t.results = s.results ++ [0x00 :: build op group id blen s.seq])

/-- R184: `k` `HDRBLD` commands with no reset between them carry `s0 + i` mod 256 and leave `s0 + k` mod 256;
so after 256 the counter is back, and any two of 256 consecutive headers differ in `seq`. -/
def Obligations.SequenceNumbers : Prop :=
  (∀ (s : State) (ops : List (Byte × U16 × Byte × U16)), s.ctrl = .idle → s.host = .free →
    s.agenda = ops.map (fun o => .command (encode (.hdrbld o.1 o.2.1 o.2.2.1 o.2.2.2))) →
    ∃ t, Host.Core.run Sys2Proof.core ops.length s = .next t ∧ t.ctrl = .idle ∧ t.agenda = [] ∧
      t.seq = BitVec.ofNat 8 ((s.seq.toNat + ops.length) % 256) ∧
      (ops.length = 256 → t.seq = s.seq) ∧
      t.results.length = s.results.length + ops.length ∧
      ∀ i < ops.length,
        byteAt (t.results.getD (s.results.length + i) []) 7 = BitVec.ofNat 8 ((s.seq.toNat + i) % 256) ∧
        ∀ j < ops.length, i < j → j < i + 256 →
          byteAt (t.results.getD (s.results.length + i) []) 7 ≠
            byteAt (t.results.getD (s.results.length + j) []) 7)

/-- R186: a response of fewer than 8 bytes gives `HDR_SHORT` and no data. -/
def Obligations.HdrprsShort : Prop :=
  ∀ (eop : Byte) (egroup : U16) (eid : Byte) (r : List Byte) (s : State), r.length < 8 →
    exec (.hdrprs eop egroup eid r) s = .next { s with
      ctrl := .idle, results := s.results ++ [[0x04]] }

/-- R188: the header matches when `op`, `group` and `id` equal the expected values, and any one difference
gives `HDR_MISMATCH`; R189: nothing else is compared, and the header, the body and its length are
returned. -/
def Obligations.HdrprsMatches : Prop :=
  ∀ (eop : Byte) (egroup : U16) (eid op flags l1 l0 g1 g0 sq id : Byte) (body : List Byte) (s : State),
    exec (.hdrprs eop egroup eid ([op, flags, l1, l0, g1, g0, sq, id] ++ body)) s = .next { s with
      ctrl := .idle
      results := s.results ++ [
        (if op = eop ∧ g1.toNat * 256 + g0.toNat = egroup.toNat ∧ id = eid then 0x00 else 0x03) ::
        ([op, flags, l1, l0, g1, g0, sq, id] ++ be16Nat body.length ++ body)] }

/-- The four header rows of the table. A request row is built by the header builder: the result is the row's
own words, with `SEQ` as the `seq` byte (R180, R190). A response row matches the values R190 expects,
whatever its `flags`, `len` and `seq` (R188, R189). That these rows run so is the model's reading (logs 10
and 11). -/
def Obligations.HeaderRows : Prop :=
  ∀ (flags : Byte) (len : U16) (q : Byte) (s : State),
    exec (.nmpRead len q) s = .next { s with
      ctrl := .idle, seq := s.seq + 1, results := s.results ++ [0x00 :: encode (.nmpRead len s.seq)] } ∧
    exec (.nmpWrite len q) s = .next { s with
      ctrl := .idle, seq := s.seq + 1, results := s.results ++ [0x00 :: encode (.nmpWrite len s.seq)] } ∧
    exec (.nmpReadRsp flags len q) s = .next { s with
      ctrl := .idle
      results := s.results ++ [0x00 :: (encode (.nmpReadRsp flags len q) ++ [0x00, 0x00])] } ∧
    exec (.nmpWriteRsp flags len q) s = .next { s with
      ctrl := .idle
      results := s.results ++ [0x00 :: (encode (.nmpWriteRsp flags len q) ++ [0x00, 0x00])] }

/-! ## Base64 -/

/-- R123, and the length of R122: whole groups of alphabet characters and `=`, with `=` only at the end of
the last group, and concatenation on group boundaries. -/
def Obligations.Base64Text : Prop :=
  ∀ b : List Byte,
    (b64enc b).length = 4 * ceilDiv b.length 3 ∧ (b64enc b).length % 4 = 0 ∧
    (∀ c ∈ b64enc b, c = 0x3D ∨ ∃ v < 64, b64Val c = some v) ∧
    (∀ i, (b64enc b)[i]? = some 0x3D → (b64enc b).length ≤ i + 2) ∧
    (∀ a : List Byte, a.length % 3 = 0 → b64enc (a ++ b) = b64enc a ++ b64enc b) ∧
    (∀ k m, 3 * k + 3 * m ≤ b.length →
      b64enc (slice b (3 * k) (3 * k + 3 * m)) = slice (b64enc b) (4 * k) (4 * k + 4 * m))

/-- R73: the alphabet (A to Z, a to z, 0 to 9, `+`, `/` for 0 to 63), and how a group of three bytes, a final
group of one and a final group of two are packed, the first byte's bit 7 first. -/
def Obligations.Base64Groups : Prop :=
  (∀ (c : Byte) (v : Nat), b64Val c = some v ↔
    (v < 26 ∧ c.toNat = 0x41 + v) ∨ (26 ≤ v ∧ v < 52 ∧ c.toNat = 0x61 + (v - 26)) ∨
    (52 ≤ v ∧ v < 62 ∧ c.toNat = 0x30 + (v - 52)) ∨ (v = 62 ∧ c.toNat = 0x2B) ∨
    (v = 63 ∧ c.toNat = 0x2F)) ∧
  b64enc [] = [] ∧ (∀ b : List Byte, (b64enc b).length = 4 * ceilDiv b.length 3) ∧
  ∀ (b0 b1 b2 : Byte) (rest : List Byte),
    (let v := b0.toNat * 2 ^ 16 + b1.toNat * 2 ^ 8 + b2.toNat
     ∃ c0 c1 c2 c3, b64enc (b0 :: b1 :: b2 :: rest) = [c0, c1, c2, c3] ++ b64enc rest ∧
       b64Val c0 = some (v / 2 ^ 18) ∧ b64Val c1 = some (v / 2 ^ 12 % 64) ∧
       b64Val c2 = some (v / 2 ^ 6 % 64) ∧ b64Val c3 = some (v % 64)) ∧
    (let v := b0.toNat * 2 ^ 16 + b1.toNat * 2 ^ 8
     ∃ c0 c1 c2, b64enc [b0, b1] = [c0, c1, c2, 0x3D] ∧
       b64Val c0 = some (v / 2 ^ 18) ∧ b64Val c1 = some (v / 2 ^ 12 % 64) ∧
       b64Val c2 = some (v / 2 ^ 6 % 64)) ∧
    (let v := b0.toNat * 2 ^ 16
     ∃ c0 c1, b64enc [b0] = [c0, c1, 0x3D, 0x3D] ∧
       b64Val c0 = some (v / 2 ^ 18) ∧ b64Val c1 = some (v / 2 ^ 12 % 64))

/-- R156: the decoder inverts the encoder on every byte string. -/
def Obligations.Base64RoundTrip : Prop :=
  ∀ b : List Byte, b64dec (b64enc b) = some b

/-- R156: the decoder is strict: it accepts exactly whole groups, of alphabet characters except for one or two
`=` at the very end (nothing but `=` follows a `=`), and the text's length is that of the decoded bytes. What
it gives is the octets of each group's 24-bit value in order, a `=` counting as 0: three, two or one of them,
the bits below the last of them ignored whatever they are. -/
def Obligations.Base64IsStrict : Prop :=
  ∀ t : List Byte,
    ((∃ d, b64dec t = some d) ↔ t.length % 4 = 0 ∧
      (∀ i c, t[i]? = some c → (∃ v, b64Val c = some v) ∨ (c = 0x3D ∧ t.length ≤ i + 2)) ∧
      ∀ i j, t[i]? = some 0x3D → i ≤ j → j < t.length → t[j]? = some 0x3D) ∧
    (∀ d, b64dec t = some d → t.length = 4 * ceilDiv d.length 3) ∧
    b64dec [] = some [] ∧
    ∀ (g0 g1 : Byte) (v0 v1 : Nat), b64Val g0 = some v0 → b64Val g1 = some v1 →
      (let v := v0 * 2 ^ 18 + v1 * 2 ^ 12
       b64dec [g0, g1, 0x3D, 0x3D] = some [BitVec.ofNat 8 (v / 2 ^ 16)]) ∧
      ∀ (g2 : Byte) (v2 : Nat), b64Val g2 = some v2 →
        (let v := v0 * 2 ^ 18 + v1 * 2 ^ 12 + v2 * 2 ^ 6
         b64dec [g0, g1, g2, 0x3D] = some [BitVec.ofNat 8 (v / 2 ^ 16), BitVec.ofNat 8 (v / 2 ^ 8)]) ∧
        ∀ (g3 : Byte) (v3 : Nat), b64Val g3 = some v3 → ∀ d, b64dec t = some d →
          let v := v0 * 2 ^ 18 + v1 * 2 ^ 12 + v2 * 2 ^ 6 + v3
          b64dec (g0 :: g1 :: g2 :: g3 :: t) =
            some ([BitVec.ofNat 8 (v / 2 ^ 16), BitVec.ofNat 8 (v / 2 ^ 8), BitVec.ofNat 8 v] ++ d)

/-! ## FRSEND -/

/-- R202: a payload above `TX_MAX_PAYLOAD` ends with `TOO_LONG` before any write. -/
def Obligations.FrsendTooLong : Prop :=
  ∀ (p : List Byte) (s : State), s.params.txMaxPayload < p.length →
    exec (.frsend p) s = .next { s with ctrl := .idle, results := s.results ++ [[0x05]] }

/-- R127, R128: an accepted `FRSEND` sets the TX state to the frame's segment lines and changes nothing else;
line `k` is its marker, characters `124k` to `124k + 123` of the text, and `LF`. -/
def Obligations.FrsendSetsLines : Prop :=
  ∀ (p : List Byte) (s : State), s.params.wf → p.length ≤ s.params.txMaxPayload →
    ∃ lines : List (List Byte),
      exec (.frsend p) s = .next { s with
        ctrl := .busy .frsend, txsegs := lines, txi := 0, txj := 0, txwake := 0 } ∧
      let e := b64enc (be16Nat (p.length + 2) ++ p ++ be16 (crc16 p p.length true))
      8 ≤ e.length ∧ lines.length = ceilDiv e.length 124 ∧ 1 ≤ lines.length ∧
      ∀ k < lines.length, ∃ t : List Byte,
        lines[k]? = some ((if k = 0 then [0x06, 0x09] else [0x04, 0x14]) ++ t ++ [0x0A]) ∧
        t = slice e (124 * k) (124 * k + 124) ∧ t.length % 4 = 0 ∧ 4 ≤ t.length ∧
        (k + 1 < lines.length → t.length = 124) ∧
        (k + 1 = lines.length → t.length = e.length - 124 * (lines.length - 1)) ∧
        2 + t.length + 1 ≤ 127

/-- R132: the number of lines, the length and the load of each line but the last, and the bytes written. -/
def Obligations.FrameSizing : Prop :=
  ∀ p : List Byte, p.length ≤ 65533 →
    let m := ceilDiv (4 * ceilDiv (p.length + 4) 3) 124
    (frameLines (frameBytes p)).length = m ∧
    (frameLines (frameBytes p)).flatten.length = 4 * ceilDiv (p.length + 4) 3 + 3 * m ∧
    ∀ k, k + 1 < m → ∃ l, (frameLines (frameBytes p))[k]? = some l ∧ l.length = 127 ∧
      b64dec (slice l 2 126) = some (slice (frameBytes p) (93 * k) (93 * k + 93))

/-- R44, R130: one step of the TX engine is one write, and what it does is what the sink answers: an accepted
byte is on the line, a write error ends the command with `IO_ERROR`, a held write leaves the engine where
it was. The answer is the next planned one, or, past the plan's end, a free value (log 6). Model's choice: the
exact time, `TXWAKE` or no time at all (log 4; R129 gives a lower bound only). -/
def Obligations.TxWriteByAnswer : Prop :=
  ∀ (s : State) (l : List Byte) (b : Byte) (a : SinkAnswer) (plan : List SinkAnswer) (n : Nat),
    s.ctrl = .busy .frsend → s.txsegs[s.txi]? = some l → l[s.txj]? = some b →
    ((s.sinkPlan = a :: plan ∧ n = s.draws) ∨
      (s.sinkPlan = [] ∧ plan = [] ∧ a = Config.sinkAnswer s.draws ∧ n = s.draws + 1)) →
    let w := if 0 < s.txi ∧ s.txj = 0 then max s.now s.txwake else s.now
    let s' := { s with now := w, sinkPlan := plan, draws := n }
    (a = .hold → engineStep s = .next s') ∧
    (a = .ioerr → engineStep s = .next { s' with ctrl := .idle, results := s.results ++ [[0x06]] }) ∧
    (a = .accept → s.txj + 1 < l.length →
      engineStep s = .next { s' with sent := s.sent ++ [b], txj := s.txj + 1 }) ∧
    (a = .accept → s.txj + 1 = l.length → s.txi + 1 < s.txsegs.length →
      engineStep s = .next { s' with
        sent := s.sent ++ [b], txi := s.txi + 1, txj := 0, txwake := w + s.params.contDelay }) ∧
    (a = .accept → s.txj + 1 = l.length → s.txi + 1 = s.txsegs.length →
      engineStep s = .next { s' with
        sent := s.sent ++ [b], txi := s.txi + 1, txj := 0, txwake := w + s.params.contDelay
        ctrl := .idle, results := s.results ++ [[0x00]] })

/-- R129: the first byte of a continuation line is not written before `Now() >= TXWAKE`; `TXWAKE` is
`CONT_DELAY` after the acceptance of the last byte (the `LF`, R27) of the line before; no delay comes before
any other byte. The last clause says so as no time at all, which is the model's choice (log 4: a write takes
no time but what ticks give it). -/
def Obligations.ContinuationDelay : Prop :=
  ∀ s t : State, s.ctrl = .busy .frsend → engineStep s = .next t →
    (0 < s.txi → s.txj = 0 → t.sent ≠ s.sent → s.txwake ≤ t.now) ∧
    (t.txi ≠ s.txi → t.txi = s.txi + 1 ∧ t.txj = 0 ∧ t.txwake = t.now + s.params.contDelay ∧
      ∃ l b, s.txsegs[s.txi]? = some l ∧ s.txj + 1 = l.length ∧ l[s.txj]? = some b ∧
        t.sent = s.sent ++ [b]) ∧
    (t.txi = s.txi → t.txwake = s.txwake) ∧
    (s.txi = 0 ∨ s.txj ≠ 0 → t.now = s.now)

/-- R130, R131: with a sink that accepts, the descriptor of an accepted `FRSEND` puts exactly the frame's
segment lines on the line, one byte a step, and then ends with `OK`; nothing else of the block's state but
the TX state has changed. The count of steps rests on the acceptance being a step of its own, the model's
reading (log 7). -/
def Obligations.FrsendWritesTheFrame : Prop :=
  ∀ (s : State) (p : List Byte) (plan : List SinkAnswer), s.params.wf → s.ctrl = .idle → s.host = .free →
    p.length ≤ s.params.txMaxPayload → s.agenda = [.command (encode (.frsend p))] →
    let bytes := (frameLines (frameBytes p)).flatten
    s.sinkPlan = List.replicate bytes.length .accept ++ plan →
    (∀ k < bytes.length, ∃ t, Host.Core.run Sys2Proof.core (1 + k) s = .next t ∧
      t.ctrl = .busy .frsend ∧ t.sent = s.sent ++ bytes.take k ∧ t.results = s.results) ∧
    ∃ t, Host.Core.run Sys2Proof.core (1 + bytes.length) s = .next t ∧ t.ctrl = .idle ∧
      t.sent = s.sent ++ bytes ∧ t.results = s.results ++ [[0x00]] ∧ t.sinkPlan = plan ∧
      t.source = s.source ∧ t.seq = s.seq ∧ t.line = s.line ∧ t.lovf = s.lovf ∧ t.rxph = s.rxph ∧
      t.exp = s.exp ∧ t.acc = s.acc ∧ t.deadline = s.deadline

/-- R203: at the first write error `FRSEND` ends with `IO_ERROR`, and the bytes accepted before it remain
written. The count of steps is the model's reading (log 7). -/
def Obligations.FrsendStopsAtIoError : Prop :=
  ∀ (s : State) (p : List Byte) (k : Nat) (plan : List SinkAnswer), s.params.wf → s.ctrl = .idle →
    s.host = .free → p.length ≤ s.params.txMaxPayload → s.agenda = [.command (encode (.frsend p))] →
    k < (frameLines (frameBytes p)).flatten.length →
    s.sinkPlan = List.replicate k .accept ++ .ioerr :: plan →
    ∃ t, Host.Core.run Sys2Proof.core (k + 2) s = .next t ∧ t.ctrl = .idle ∧
      t.sent = s.sent ++ (frameLines (frameBytes p)).flatten.take k ∧
      t.results = s.results ++ [[0x06]] ∧ t.sinkPlan = plan ∧ t.seq = s.seq ∧ t.source = s.source

/-- R238: while the sink holds, `FRSEND` does not end, writes nothing and returns nothing, for as long as it
holds; `RESET` then ends it with no result. -/
def Obligations.HeldSinkHangsFrsend : Prop :=
  ∀ (s : State) (l : List Byte) (n : Nat) (plan : List SinkAnswer) (rest : List Input),
    s.ctrl = .busy .frsend → s.txsegs[s.txi]? = some l → s.txj < l.length →
    s.sinkPlan = List.replicate n .hold ++ plan →
    s.agenda = List.replicate n .proceed ++ .reset :: rest →
    (∃ t, Host.Core.run Sys2Proof.core n s = .next t ∧ t.ctrl = .busy .frsend ∧ t.sent = s.sent ∧
      t.results = s.results ∧ t.txi = s.txi ∧ t.txj = s.txj) ∧
    ∃ t, Host.Core.run Sys2Proof.core (n + 1) s = .next t ∧ t.ctrl = .idle ∧ t.sent = s.sent ∧
      t.results = s.results

/-- The TX engine touches neither `SEQ`, the RX state nor the byte source; the RX engine neither `SEQ`, the
TX state nor the line (R20, R120, R150). -/
def Obligations.EnginesKeepApart : Prop :=
  ∀ s t : State, engineStep s = .next t →
    (s.ctrl = .busy .frsend → t.seq = s.seq ∧ t.line = s.line ∧ t.lovf = s.lovf ∧ t.rxph = s.rxph ∧
      t.exp = s.exp ∧ t.acc = s.acc ∧ t.deadline = s.deadline ∧ t.source = s.source ∧
      t.txsegs = s.txsegs) ∧
    (s.ctrl = .busy .frrecv → t.seq = s.seq ∧ t.txsegs = s.txsegs ∧ t.txi = s.txi ∧ t.txj = s.txj ∧
      t.txwake = s.txwake ∧ t.sent = s.sent ∧ t.sinkPlan = s.sinkPlan ∧ t.draws = s.draws ∧
      t.deadline = s.deadline)

/-! ## FRRECV -/

/-- R151: `FRRECV` clears the RX state, fixes its deadline, and leaves the source's bytes where they are. -/
def Obligations.FrrecvStarts : Prop :=
  ∀ s : State, exec .frrecv s = .next { s with
    ctrl := .busy .frrecv, line := [], lovf := false, rxph := .hunt, exp := 0x0000, acc := []
    deadline := s.now + s.params.rxTimeout }

/-- R153: a byte other than 0x0A is appended to `LINE` while there is room, and otherwise dropped with
`LOVF` set; nothing else changes but the source and the time. 0x0A ends the line. Model's choice: the exact
time of the read, the byte's arrival or now (logs 4 and 5). -/
def Obligations.LineAssembly : Prop :=
  ∀ (s : State) (tick : Nat) (b : Byte) (rest : List (Nat × Byte)), s.ctrl = .busy .frrecv →
    s.source = (tick, b) :: rest → s.now < s.deadline → tick < s.deadline →
    (b ≠ 0x0A → s.line.length < s.params.lineCap → engineStep s = .next { s with
      now := max s.now tick, source := rest, line := s.line ++ [b] }) ∧
    (b ≠ 0x0A → s.params.lineCap ≤ s.line.length → engineStep s = .next { s with
      now := max s.now tick, source := rest, lovf := true }) ∧
    (b = 0x0A → ∀ t, engineStep s = .next t → t.source = rest ∧ t.line = [] ∧ t.lovf = false)

/-- R161: a discarded line (overflowed, R154; no marker, R157; bad or empty base64, R158; a short start,
R159; a prefix out of range, R160; a continuation with no frame in progress, R163) leaves the frame in
progress and the deadline as they were, and no result. Model's choice: the exact time of the read (logs 4 and
5). -/
def Obligations.NoiseIsDiscarded : Prop :=
  ∀ (s : State) (tick : Nat) (rest : List (Nat × Byte)), s.ctrl = .busy .frrecv →
    s.source = (tick, 0x0A) :: rest → s.now < s.deadline → tick < s.deadline →
    (s.lovf = true ∨ NoiseLine s.params s.line ∨
      (s.rxph = .hunt ∧ (lineBody s.line).take 2 = [0x04, 0x14])) →
    engineStep s = .next { s with now := max s.now tick, source := rest, line := [], lovf := false }

/-- A segment whose text is bad base64 or decodes to nothing is discarded (R158), and so is a continuation
segment with no frame in progress (R163). -/
def Obligations.UnusableSegments : Prop :=
  ∀ (t : List Byte) (s : State), s.ctrl = .busy .frrecv →
    ((b64dec t = none ∨ b64dec t = some []) →
      exec (.segStart t) s = .next s ∧ exec (.segCont t) s = .next s) ∧
    (s.rxph = .hunt → exec (.segCont t) s = .next s)

/-- R162, R164: a start segment in range begins a new frame whatever was in progress; data past the expected
total abandons it; data short of it is accumulated. -/
def Obligations.StartSegmentTaken : Prop :=
  ∀ (t x : List Byte) (total : U16) (s : State), s.ctrl = .busy .frrecv →
    b64dec t = some (be16 total ++ x) → 2 ≤ total.toNat → total.toNat ≤ s.params.rxCap →
    (total.toNat < x.length →
      exec (.segStart t) s = .next { s with rxph := .hunt, exp := 0x0000, acc := [] }) ∧
    (x.length < total.toNat →
      exec (.segStart t) s = .next { s with rxph := .accum, exp := total, acc := x })

/-- R163, R164: a continuation segment of a frame in progress extends it, or abandons it if it would pass the
expected total. -/
def Obligations.ContinuationSegmentTaken : Prop :=
  ∀ (t x : List Byte) (s : State), s.ctrl = .busy .frrecv → s.rxph = .accum → b64dec t = some x → x ≠ [] →
    (s.exp.toNat < s.acc.length + x.length →
      exec (.segCont t) s = .next { s with rxph := .hunt, exp := 0x0000, acc := [] }) ∧
    (s.acc.length + x.length < s.exp.toNat →
      exec (.segCont t) s = .next { s with acc := s.acc ++ x })

/-- R165, R166: the segment that brings the accumulated bytes to the expected total completes the frame, be
it a start or a continuation: residual 0 gives `OK`; a nonzero residual gives `CRC_WARN` with the payload
under `ACCEPT`, and abandons the frame under `REJECT`. -/
def Obligations.CompletedFrame : Prop :=
  ∀ (t x a : List Byte) (total : U16) (s : State) (i : Instr), s.ctrl = .busy .frrecv →
    2 ≤ total.toNat → a.length = total.toNat →
    ((i = .segStart t ∧ b64dec t = some (be16 total ++ a) ∧ total.toNat ≤ s.params.rxCap) ∨
     (i = .segCont t ∧ b64dec t = some x ∧ x ≠ [] ∧ s.rxph = .accum ∧ s.exp = total ∧ a = s.acc ++ x)) →
    let r := crc16 a total.toNat true
    (r = 0x0000 → exec i s = .next { s with
      rxph := .accum, exp := total, acc := a, ctrl := .idle
      results := s.results ++
        [0x00 :: (be16Nat (total.toNat - 2) ++ [0x00, 0x00] ++ a.take (total.toNat - 2))] }) ∧
    (r ≠ 0x0000 → s.params.crcPolicy = .accept → exec i s = .next { s with
      rxph := .accum, exp := total, acc := a, ctrl := .idle
      results := s.results ++
        [0x02 :: (be16Nat (total.toNat - 2) ++ be16 r ++ a.take (total.toNat - 2))] }) ∧
    (r ≠ 0x0000 → s.params.crcPolicy = .reject → exec i s = .next { s with
      rxph := .hunt, exp := 0x0000, acc := [] })

/-- The `FRAME` row while `FRRECV` runs: a frame that fits is complete and checked; its residual is that of
payload and trailer (R165, R166, R160; the reading of this row is the model's, log 9). -/
def Obligations.FrameRowIsChecked : Prop :=
  ∀ (p : List Byte) (trailer : U16) (s : State), s.ctrl = .busy .frrecv → p.length ≤ 65533 →
    let r := crc16 (p ++ be16 trailer) (p.length + 2) true
    let full := { s with
      rxph := .accum, exp := BitVec.ofNat 16 (p.length + 2), acc := p ++ be16 trailer, ctrl := .idle }
    (s.params.rxCap < p.length + 2 → exec (.frame p trailer) s = .next s) ∧
    (p.length + 2 ≤ s.params.rxCap → r = 0x0000 → exec (.frame p trailer) s = .next { full with
      results := s.results ++ [0x00 :: (be16Nat p.length ++ [0x00, 0x00] ++ p)] }) ∧
    (p.length + 2 ≤ s.params.rxCap → r ≠ 0x0000 → s.params.crcPolicy = .accept →
      exec (.frame p trailer) s = .next { full with
        results := s.results ++ [0x02 :: (be16Nat p.length ++ be16 r ++ p)] }) ∧
    (p.length + 2 ≤ s.params.rxCap → r ≠ 0x0000 → s.params.crcPolicy = .reject →
      exec (.frame p trailer) s = .next { s with rxph := .hunt, exp := 0x0000, acc := [] })

/-- The wire rows of the table while no `FRRECV` runs: their bytes wait in the byte source in arrival order,
after those that have come by now and before those still to come, and nothing else changes (R32, R45, R212,
R241; the reading of these rows is the model's, logs 8 and 9). -/
def Obligations.WireRowsWait : Prop :=
  ∀ (t p : List Byte) (trailer : U16) (s : State), s.ctrl ≠ .busy .frrecv →
    let wait := fun bytes : List Byte => { s with
      source := s.source.takeWhile (fun x => x.1 ≤ s.now) ++ bytes.map (fun b => (s.now, b)) ++
        s.source.dropWhile (fun x => x.1 ≤ s.now) }
    exec (.segStart t) s = .next (wait (encode (.segStart t))) ∧
    exec (.segCont t) s = .next (wait (encode (.segCont t))) ∧
    exec (.frame p trailer) s = .next (wait (frameLines (encode (.frame p trailer))).flatten)

/-- R204: with no byte available before `DEADLINE`, `FRRECV` ends with `NO_DATA`, and the source keeps its
bytes. Model's choice: that it ends exactly at `DEADLINE`, or at once if that has passed (log 4; 93 I3 allows
any later time), and that an empty list means that no byte comes (log 5). -/
def Obligations.FrrecvTimesOut : Prop :=
  ∀ s : State, s.ctrl = .busy .frrecv →
    (s.deadline ≤ s.now ∨ s.source = [] ∨ ∃ tick b rest, s.source = (tick, b) :: rest ∧ s.deadline ≤ tick) →
    engineStep s = .next { s with
      now := max s.now s.deadline, ctrl := .idle, results := s.results ++ [[0x01]] }

/-- R152: a byte is consumed only if it is available before `DEADLINE`, in arrival order, and no byte and no
line moves `DEADLINE`. Model's choice: the exact time of the read, the byte's arrival or now (logs 4
and 5). -/
def Obligations.NoReadAtDeadline : Prop :=
  ∀ s t : State, s.ctrl = .busy .frrecv → engineStep s = .next t → t.deadline = s.deadline ∧
    (t.source = s.source ∨ ∃ tick b, s.source = (tick, b) :: t.source ∧ s.now < s.deadline ∧
      tick < s.deadline ∧ t.now = max s.now tick)

/-- R167, R168, R207: `FRRECV` ends only with `NO_DATA` once `DEADLINE` has come, or before `DEADLINE` in the
step that consumes the 0x0A of a completing segment, with the payload. The segment is the line in `LINE`: a
start whose decoded bytes are the total and the whole of `ACC`, or a continuation that extends what `ACC` held
to the total. -/
def Obligations.FrrecvEndings : Prop :=
  ∀ s t : State, s.ctrl = .busy .frrecv → engineStep s = .next t →
    (t.ctrl = .busy .frrecv ∧ t.results = s.results) ∨
    (t.ctrl = .idle ∧ s.deadline ≤ t.now ∧ t.source = s.source ∧ t.results = s.results ++ [[0x01]]) ∨
    (t.ctrl = .idle ∧ t.now < s.deadline ∧ (∃ tick, s.source = (tick, 0x0A) :: t.source) ∧
      s.lovf = false ∧ t.acc.length = t.exp.toNat ∧
      (((lineBody s.line).take 2 = [0x06, 0x09] ∧
          b64dec ((lineBody s.line).drop 2) = some (be16 t.exp ++ t.acc)) ∨
       ((lineBody s.line).take 2 = [0x04, 0x14] ∧ s.rxph = .accum ∧ t.exp = s.exp ∧
          ∃ x, b64dec ((lineBody s.line).drop 2) = some x ∧ t.acc = s.acc ++ x)) ∧
      ∃ c : Byte, let r := crc16 t.acc t.exp.toNat true
        ((c = 0x00 ∧ r = 0x0000) ∨ (c = 0x02 ∧ r ≠ 0x0000 ∧ s.params.crcPolicy = .accept)) ∧
        t.results = s.results ++ [c :: (be16 (t.exp - 2) ++ be16 r ++ t.acc.take (t.exp.toNat - 2))])

/-- R209: with `CRC_POLICY = REJECT`, `CRC_WARN` is never returned. -/
def Obligations.RejectNeverWarns : Prop :=
  ∀ s t : State, s.params.crcPolicy = .reject → step s = .next t →
    ∀ data, t.results ≠ s.results ++ [0x02 :: data]

/-- R238: left to itself, `FRRECV` ends after at most one step for each byte of the source and one more, with
exactly one result. R238 asks that `Now()` keep advancing. Model's choice: a read that waits moves `Now()` to
the byte or to `DEADLINE` in its own step (log 4), and nothing comes after the source's end (log 5). -/
def Obligations.FrrecvAlwaysEnds : Prop :=
  ∀ s : State, s.ctrl = .busy .frrecv → s.agenda = [] →
    ∃ k ≤ s.source.length + 1, ∃ t, Host.Core.run Sys2Proof.core k s = .next t ∧ t.ctrl = .idle ∧
      ∃ r, t.results = s.results ++ [r]

/-- R170: the lines `FRSEND P` writes, in one window before the deadline, with any lines among them that the
receiver discards in every state, make `FRRECV` return `OK` with `P`; it stops at the last of their bytes
and leaves the rest in the source. The count of steps is the model's reading (log 7), and the source as a list
is its choice (log 5). -/
def Obligations.FramerRoundTrip : Prop :=
  ∀ (s : State) (p : List Byte) (noise : List (List (List Byte))) (wire later : List (Nat × Byte)),
    s.params.wf → s.ctrl = .idle → s.host = .free → s.agenda = [.command [0x03]] →
    p.length ≤ s.params.txMaxPayload → p.length + 2 ≤ s.params.rxCap → 0 < s.params.rxTimeout →
    noise.length = (frameLines (frameBytes p)).length →
    (∀ block ∈ noise, ∀ l ∈ block, 0x0A ∉ l ∧ (NoiseLine s.params l ∨ s.params.lineCap < l.length)) →
    s.source = wire ++ later → wire.map Prod.snd = interleaved noise (frameLines (frameBytes p)) →
    (∀ x ∈ wire, x.1 < s.now + s.params.rxTimeout) →
    ∃ t, Host.Core.run Sys2Proof.core (1 + wire.length) s = .next t ∧ t.ctrl = .idle ∧
      t.results = s.results ++ [0x00 :: (be16Nat p.length ++ [0x00, 0x00] ++ p)] ∧
      t.source = later ∧ t.seq = s.seq ∧ t.sent = s.sent

/-! ## The host's sequences -/

/-- R68: `SENDREQ` is `FRSEND (H ++ BODY)`; unless that gives `OK` it returns none; then `FRRECV`; on
`NO_DATA` it returns none, and otherwise the bytes of the result from the sixth on. -/
def Obligations.SendreqSequence : Prop :=
  (∀ (h body : List Byte) (s : State),
    exec (.sendreq h body) s = exec (.frsend (h ++ body)) { s with host := .sending false }) ∧
  (∀ (h body : List Byte) (s : State), h.length + body.length ≤ s.params.txMaxPayload →
    exec (.sendreq h body) s = .next { s with
      host := .sending false, ctrl := .busy .frsend
      txsegs := frameLines (frameBytes (h ++ body)), txi := 0, txj := 0, txwake := 0 }) ∧
  ∀ (s : State) (before : List (List Byte)) (c : Byte) (data : List Byte), s.ctrl = .idle →
    s.results = before ++ [c :: data] →
    (s.host = .sending false → c ≠ 0x00 → engineStep s = .next { s with
      host := .free, returns := s.returns ++ [.sendreq none] }) ∧
    (s.host = .sending false → c = 0x00 →
      engineStep s = exec .frrecv { s with host := .receiving false }) ∧
    (s.host = .receiving false → c = 0x01 → engineStep s = .next { s with
      host := .free, returns := s.returns ++ [.sendreq none] }) ∧
    (s.host = .receiving false → c ≠ 0x01 → engineStep s = .next { s with
      host := .free, returns := s.returns ++ [.sendreq (some (data.drop 4))] })

/-- R69: `PING` is `HDRBLD 0, 0, 1, 0`; `SENDREQ` of the header it returned, with no body; on none a failure;
`HDRPRS 1, 0, 1` of the response; success exactly when that gives `OK`. -/
def Obligations.PingSequence : Prop :=
  (∀ s : State, exec .ping s = .next { s with
    host := .building, ctrl := .idle, seq := s.seq + 1
    results := s.results ++ [[0x00, 0x00, 0x00, 0x00, 0x00, 0x00, 0x00, s.seq, 0x01]] }) ∧
  ∀ (s : State) (before : List (List Byte)) (c : Byte) (data : List Byte), s.ctrl = .idle →
    s.results = before ++ [c :: data] →
    (s.host = .building → engineStep s = exec (.frsend (data.take 8)) { s with host := .sending true }) ∧
    (s.host = .sending true → c ≠ 0x00 → engineStep s = .next { s with
      host := .free, returns := s.returns ++ [.ping false] }) ∧
    (s.host = .sending true → c = 0x00 →
      engineStep s = exec .frrecv { s with host := .receiving true }) ∧
    (s.host = .receiving true → c = 0x01 → engineStep s = .next { s with
      host := .free, returns := s.returns ++ [.ping false] }) ∧
    (s.host = .receiving true → c ≠ 0x01 →
      engineStep s = exec (.hdrprs 0x01 0x0000 0x01 (data.drop 4)) { s with host := .parsing }) ∧
    (s.host = .parsing → engineStep s = .next { s with
      host := .free, returns := s.returns ++ [.ping (decide (c = 0x00))] })

/-- The whole of `PING` against a sink that accepts and a source that answers with a `READ_RSP` echo header,
whatever its `flags`, `len` and `seq` and whatever body follows: the ping succeeds, one sequence number is
used, and exactly the request's line has been sent (R68, R69, R170, R190). Model's choice: the host's sequence
as part of the state (log 12), and that writes take no time, so that the response is in time (logs 4 and
5). -/
def Obligations.PingSucceeds : Prop :=
  ∀ (s : State) (flags l1 l0 q : Byte) (body : List Byte) (wire later : List (Nat × Byte))
    (plan : List SinkAnswer),
    s.params.wf → s.ctrl = .idle → s.host = .free → s.agenda = [.perform .ping] →
    0 < s.params.rxTimeout → body.length + 10 ≤ s.params.rxCap →
    let request := (frameLines (frameBytes [0x00, 0x00, 0x00, 0x00, 0x00, 0x00, s.seq, 0x01])).flatten
    let response := [0x01, flags, l1, l0, 0x00, 0x00, q, 0x01] ++ body
    s.sinkPlan = List.replicate request.length .accept ++ plan →
    s.source = wire ++ later → wire.map Prod.snd = (frameLines (frameBytes response)).flatten →
    (∀ x ∈ wire, x.1 < s.now + s.params.rxTimeout) →
    ∃ k t, Host.Core.run Sys2Proof.core k s = .next t ∧ t.ctrl = .idle ∧ t.host = .free ∧
      t.returns = s.returns ++ [.ping true] ∧ t.seq = s.seq + 1 ∧ t.sent = s.sent ++ request ∧
      t.source = later
end

