-- ==== Sys2Proof/Laws/Base64.lean ====
section
/-! SUPPORT. The base64 alphabet and the length of a text (R73, R122, R156). -/

namespace Sys2Proof.Machine

/-- The decoder's `val` inverts the alphabet. -/
theorem b64Val_b64Char : ∀ v < 64, b64Val (b64Char v) = some v := by decide

/-- `=` is no alphabet character. -/
theorem b64Char_ne_pad : ∀ v < 64, b64Char v ≠ padChar := by decide

/-- No character of the text is `LF`, so a text never ends its line (R74, R153). -/
theorem b64Char_ne_lf : ∀ v < 64, b64Char v ≠ 0x0A := by decide

theorem sextet_lt (v k : Nat) : sextet v k < 64 := Nat.mod_lt _ (by decide)

/-- `len(b64enc(B)) = 4 * ceil(len(B) / 3)` (R122). -/
theorem b64enc_length (b : List Byte) : (b64enc b).length = 4 * ((b.length + 2) / 3) := by
  fun_induction b64enc b with
  | case1 => rfl
  | case2 => simp
  | case3 => simp
  | case4 b0 b1 b2 rest v ih => simp [ih]; omega

end Sys2Proof.Machine
end

