-- ==== Sys2Proof/Laws/Bytes.lean ====
section
/-! SUPPORT. Big-endian integers and the lengths of encodings (R8, R41, R79). -/

namespace Sys2Proof

@[simp] theorem be16_length (v : U16) : (be16 v).length = 2 := rfl

@[simp] theorem be16Nat_length (n : Nat) : (be16Nat n).length = 2 := rfl

theorem be16_eq (v : U16) : be16 v = [v.extractLsb' 8 8, v.extractLsb' 0 8] := rfl

/-- `rd16` reads the bytes of `be16` back. -/
theorem rd16_be16 (v : U16) (rest : List Byte) : rd16 (be16 v ++ rest) 0 = v := by
  apply BitVec.eq_of_toNat_eq
  have h := v.isLt
  simp [rd16, be16, byteAt, BitVec.extractLsb'_toNat, Nat.shiftRight_eq_div_pow]
  omega

/-- `be16` writes the bytes that `rd16` read. -/
theorem be16_rd16 (a b : Byte) : be16 (rd16 [a, b] 0) = [a, b] := by
  have ha := a.isLt
  have hb := b.isLt
  simp only [be16, rd16, byteAt, List.getD_cons_zero, List.getD_cons_succ, Nat.zero_add]
  congr 1
  · apply BitVec.eq_of_toNat_eq
    simp [BitVec.extractLsb'_toNat, Nat.shiftRight_eq_div_pow]
    omega
  · congr 1
    apply BitVec.eq_of_toNat_eq
    simp [BitVec.extractLsb'_toNat]
    omega

theorem rd16_be16Nat (n : Nat) (rest : List Byte) (h : n ≤ 65535) :
    (rd16 (be16Nat n ++ rest) 0).toNat = n := by
  rw [be16Nat, rd16_be16, BitVec.toNat_ofNat]
  omega

@[simp] theorem hdr_length (op flags : Byte) (len group : U16) (sq id : Byte) :
    (hdr op flags len group sq id).length = 8 := rfl

@[simp] theorem zeros_length (n : Nat) : (zeros n).length = n := List.length_replicate

end Sys2Proof
end

