-- ==== Sys2Proof/Laws/State.lean ====
section
/-! SUPPORT. What each shared update leaves in each field of State, one equation a field (simp takes a
conjunction apart), so that no proof unfolds a record update. -/

namespace Sys2Proof.Machine

variable (s : State)

@[simp] theorem finish_fields (c : Byte) (d : List Byte) :
    (finish c d s).ctrl = .idle ∧ (finish c d s).results = s.results ++ [c :: d] ∧
    (finish c d s).params = s.params ∧ (finish c d s).seq = s.seq ∧
    (finish c d s).txsegs = s.txsegs ∧ (finish c d s).txi = s.txi ∧ (finish c d s).txj = s.txj ∧
    (finish c d s).txwake = s.txwake ∧ (finish c d s).line = s.line ∧ (finish c d s).lovf = s.lovf ∧
    (finish c d s).rxph = s.rxph ∧ (finish c d s).exp = s.exp ∧ (finish c d s).acc = s.acc ∧
    (finish c d s).deadline = s.deadline ∧ (finish c d s).now = s.now ∧
    (finish c d s).source = s.source ∧ (finish c d s).sinkPlan = s.sinkPlan ∧
    (finish c d s).draws = s.draws ∧ (finish c d s).sent = s.sent ∧ (finish c d s).agenda = s.agenda ∧
    (finish c d s).host = s.host ∧ (finish c d s).returns = s.returns := by
  simp [finish]

@[simp] theorem waitUntil_fields (t : Nat) :
    (waitUntil t s).now = max s.now t ∧
    (waitUntil t s).params = s.params ∧ (waitUntil t s).seq = s.seq ∧ (waitUntil t s).ctrl = s.ctrl ∧
    (waitUntil t s).txsegs = s.txsegs ∧ (waitUntil t s).txi = s.txi ∧ (waitUntil t s).txj = s.txj ∧
    (waitUntil t s).txwake = s.txwake ∧ (waitUntil t s).line = s.line ∧ (waitUntil t s).lovf = s.lovf ∧
    (waitUntil t s).rxph = s.rxph ∧ (waitUntil t s).exp = s.exp ∧ (waitUntil t s).acc = s.acc ∧
    (waitUntil t s).deadline = s.deadline ∧ (waitUntil t s).source = s.source ∧
    (waitUntil t s).sinkPlan = s.sinkPlan ∧ (waitUntil t s).draws = s.draws ∧
    (waitUntil t s).sent = s.sent ∧ (waitUntil t s).agenda = s.agenda ∧ (waitUntil t s).host = s.host ∧
    (waitUntil t s).results = s.results ∧ (waitUntil t s).returns = s.returns := by
  simp [waitUntil]

@[simp] theorem arrive_fields (b : List Byte) :
    (arrive b s).source = waiting s.now s.source ++ (b.map (fun x => (s.now, x)) ++ coming s.now s.source) ∧
    (arrive b s).params = s.params ∧ (arrive b s).seq = s.seq ∧ (arrive b s).ctrl = s.ctrl ∧
    (arrive b s).txsegs = s.txsegs ∧ (arrive b s).txi = s.txi ∧ (arrive b s).txj = s.txj ∧
    (arrive b s).txwake = s.txwake ∧ (arrive b s).line = s.line ∧ (arrive b s).lovf = s.lovf ∧
    (arrive b s).rxph = s.rxph ∧ (arrive b s).exp = s.exp ∧ (arrive b s).acc = s.acc ∧
    (arrive b s).deadline = s.deadline ∧ (arrive b s).now = s.now ∧
    (arrive b s).sinkPlan = s.sinkPlan ∧ (arrive b s).draws = s.draws ∧ (arrive b s).sent = s.sent ∧
    (arrive b s).agenda = s.agenda ∧ (arrive b s).host = s.host ∧ (arrive b s).results = s.results ∧
    (arrive b s).returns = s.returns := by
  simp [arrive]

@[simp] theorem abandonFrame_fields :
    (abandonFrame s).rxph = .hunt ∧ (abandonFrame s).exp = 0 ∧ (abandonFrame s).acc = [] ∧
    (abandonFrame s).params = s.params ∧ (abandonFrame s).seq = s.seq ∧
    (abandonFrame s).ctrl = s.ctrl ∧ (abandonFrame s).txsegs = s.txsegs ∧
    (abandonFrame s).txi = s.txi ∧ (abandonFrame s).txj = s.txj ∧ (abandonFrame s).txwake = s.txwake ∧
    (abandonFrame s).line = s.line ∧ (abandonFrame s).lovf = s.lovf ∧
    (abandonFrame s).deadline = s.deadline ∧ (abandonFrame s).now = s.now ∧
    (abandonFrame s).source = s.source ∧ (abandonFrame s).sinkPlan = s.sinkPlan ∧
    (abandonFrame s).draws = s.draws ∧ (abandonFrame s).sent = s.sent ∧
    (abandonFrame s).agenda = s.agenda ∧ (abandonFrame s).host = s.host ∧
    (abandonFrame s).results = s.results ∧ (abandonFrame s).returns = s.returns := by
  simp [abandonFrame]

@[simp] theorem startFrrecv_fields :
    (startFrrecv s).ctrl = .busy .frrecv ∧ (startFrrecv s).line = [] ∧ (startFrrecv s).lovf = false ∧
    (startFrrecv s).rxph = .hunt ∧ (startFrrecv s).exp = 0 ∧ (startFrrecv s).acc = [] ∧
    (startFrrecv s).deadline = s.now + s.params.rxTimeout ∧
    (startFrrecv s).params = s.params ∧ (startFrrecv s).seq = s.seq ∧
    (startFrrecv s).txsegs = s.txsegs ∧ (startFrrecv s).txi = s.txi ∧ (startFrrecv s).txj = s.txj ∧
    (startFrrecv s).txwake = s.txwake ∧ (startFrrecv s).now = s.now ∧
    (startFrrecv s).source = s.source ∧ (startFrrecv s).sinkPlan = s.sinkPlan ∧
    (startFrrecv s).draws = s.draws ∧ (startFrrecv s).sent = s.sent ∧
    (startFrrecv s).agenda = s.agenda ∧ (startFrrecv s).host = s.host ∧
    (startFrrecv s).results = s.results ∧ (startFrrecv s).returns = s.returns := by
  simp [startFrrecv]

@[simp] theorem hostReturn_fields (v : HostReturn) :
    (hostReturn v s).host = .free ∧ (hostReturn v s).returns = s.returns ++ [v] ∧
    (hostReturn v s).params = s.params ∧ (hostReturn v s).seq = s.seq ∧
    (hostReturn v s).ctrl = s.ctrl ∧ (hostReturn v s).txsegs = s.txsegs ∧
    (hostReturn v s).txi = s.txi ∧ (hostReturn v s).txj = s.txj ∧ (hostReturn v s).txwake = s.txwake ∧
    (hostReturn v s).line = s.line ∧ (hostReturn v s).lovf = s.lovf ∧ (hostReturn v s).rxph = s.rxph ∧
    (hostReturn v s).exp = s.exp ∧ (hostReturn v s).acc = s.acc ∧
    (hostReturn v s).deadline = s.deadline ∧ (hostReturn v s).now = s.now ∧
    (hostReturn v s).source = s.source ∧ (hostReturn v s).sinkPlan = s.sinkPlan ∧
    (hostReturn v s).draws = s.draws ∧ (hostReturn v s).sent = s.sent ∧
    (hostReturn v s).agenda = s.agenda ∧ (hostReturn v s).results = s.results := by
  simp [hostReturn]

@[simp] theorem resetEvent_fields :
    (resetEvent s).seq = s.params.seqInit ∧ (resetEvent s).ctrl = .idle ∧ (resetEvent s).txsegs = [] ∧
    (resetEvent s).txi = 0 ∧ (resetEvent s).txj = 0 ∧ (resetEvent s).txwake = 0 ∧
    (resetEvent s).line = [] ∧ (resetEvent s).lovf = false ∧ (resetEvent s).rxph = .hunt ∧
    (resetEvent s).exp = 0 ∧ (resetEvent s).acc = [] ∧ (resetEvent s).deadline = 0 ∧
    (resetEvent s).host = .free ∧ (resetEvent s).params = s.params ∧ (resetEvent s).now = s.now ∧
    (resetEvent s).source = s.source ∧ (resetEvent s).sinkPlan = s.sinkPlan ∧
    (resetEvent s).draws = s.draws ∧ (resetEvent s).sent = s.sent ∧ (resetEvent s).agenda = s.agenda ∧
    (resetEvent s).results = s.results ∧ (resetEvent s).returns = s.returns := by
  simp [resetEvent]

end Sys2Proof.Machine
end

