-- ==== Sys2Proof/Laws/Framer.lean ====
section
/-! SUPPORT. What the framer's shared operations can do (41_framer_send.md, 42_framer_receive.md), one lemma
an operation. -/

namespace Sys2Proof.Machine

@[simp] theorem frameBytes_length (p : List Byte) : (frameBytes p).length = p.length + 4 := by
  simp [frameBytes]; omega

theorem split124_length (e : List Byte) : (split124 e).length = ceilDiv e.length segMaxChars := by
  simp [split124]

theorem seglines_length (ts : List (List Byte)) : (seglines ts).length = ts.length := by
  cases ts <;> simp [seglines]

/-- Piece `k` of a text (R127). -/
theorem split124_get (e : List Byte) (k : Nat) (h : k < ceilDiv e.length segMaxChars) :
    (split124 e)[k]? = some ((e.drop (124 * k)).take 124) := by
  simp [split124, segMaxChars] at *
  exact ⟨k, by simp [List.getElem?_range h], rfl⟩

/-- Line `k` of a frame's lines (R128). -/
theorem seglines_get (ts : List (List Byte)) (k : Nat) :
    (seglines ts)[k]? = ts[k]?.map (if k = 0 then startLine else contLine) := by
  cases ts with
  | nil => simp [seglines]
  | cons t ts => cases k <;> simp [seglines]

/-- A complete frame is abandoned or ends the command (R165, R166). -/
theorem completeFrame_cases (s : State) :
    (crc16 s.acc s.exp.toNat true ≠ 0 ∧ s.params.crcPolicy = .reject ∧ completeFrame s = abandonFrame s) ∨
    ((crc16 s.acc s.exp.toNat true = 0 ∨ s.params.crcPolicy = .accept) ∧
      completeFrame s = finish (frameStatus (crc16 s.acc s.exp.toNat true))
        (be16 (s.exp - 2) ++ be16 (crc16 s.acc s.exp.toNat true) ++ s.acc.take (s.exp.toNat - 2)) s) := by
  simp only [completeFrame]
  split
  case isTrue h => exact .inl ⟨h.1, h.2, rfl⟩
  case isFalse h =>
    refine .inr ⟨?_, rfl⟩
    by_cases hr : crc16 s.acc s.exp.toNat true = 0
    · exact .inl hr
    · cases hp : s.params.crcPolicy with
      | accept => exact .inr rfl
      | reject => exact absurd ⟨hr, hp⟩ h

/-- A segment's data overruns the frame, completes it, or leaves it incomplete (R164, R165). -/
theorem appendData_cases (x : List Byte) (s : State) :
    (s.exp.toNat < s.acc.length + x.length ∧ appendData x s = abandonFrame s) ∨
    (s.acc.length + x.length = s.exp.toNat ∧
      appendData x s = completeFrame { s with acc := s.acc ++ x }) ∨
    (s.acc.length + x.length < s.exp.toNat ∧ appendData x s = { s with acc := s.acc ++ x }) := by
  simp only [appendData, List.length_append]
  split
  · exact .inl ⟨‹_›, rfl⟩
  · split
    · exact .inr (.inl ⟨‹_›, rfl⟩)
    · exact .inr (.inr ⟨by omega, rfl⟩)

/-- A start segment is discarded, or begins a frame (R159, R160, R162). -/
theorem takeStart_cases (d : List Byte) (s : State) :
    takeStart d s = s ∨
    (2 ≤ d.length ∧ 2 ≤ (rd16 d 0).toNat ∧ (rd16 d 0).toNat ≤ s.params.rxCap ∧
      takeStart d s = appendData (d.drop 2) { s with rxph := .accum, exp := rd16 d 0, acc := [] }) := by
  simp only [takeStart]
  split
  · exact .inl rfl
  · split
    · exact .inl rfl
    · exact .inr ⟨by omega, by omega, by omega, rfl⟩

/-- A continuation segment is discarded, or extends the frame in progress (R163). -/
theorem takeCont_cases (d : List Byte) (s : State) :
    (s.rxph = .hunt ∧ takeCont d s = s) ∨ (s.rxph = .accum ∧ takeCont d s = appendData d s) := by
  simp only [takeCont]
  cases s.rxph <;> simp

/-- A segment line is discarded, or its decoded bytes are taken (R158). -/
theorem takeSegment_cases (take : List Byte → State → State) (t : List Byte) (s : State) :
    takeSegment take t s = s ∨
    ∃ d, b64dec t = some d ∧ 0 < d.length ∧ takeSegment take t s = take d s := by
  unfold takeSegment segmentData
  cases h : b64dec t with
  | none => exact .inl rfl
  | some d =>
    by_cases hd : d.length = 0
    · left; simp [hd]
    · exact .inr ⟨d, rfl, by omega, by simp [hd]⟩

/-- `FRSEND` ends with `TOO_LONG`, or the TX state is set (R120, R121, R128). -/
theorem startFrsend_cases (p : List Byte) (s : State) :
    (s.params.txMaxPayload < p.length ∧ startFrsend p s = finish stTooLong [] s) ∨
    (p.length ≤ s.params.txMaxPayload ∧ startFrsend p s =
      { s with ctrl := .busy .frsend, txsegs := frameLines (frameBytes p), txi := 0, txj := 0, txwake := 0 }) := by
  simp only [startFrsend]
  split
  · exact .inl ⟨‹_›, rfl⟩
  · exact .inr ⟨by omega, rfl⟩

/-- The line the marker test accepts is one of the two segments (R157). -/
theorem decodeLine_ok (l : List Byte) (i : Instr) (h : decodeLine l = .ok i) :
    (slice l 0 2 = startMarker ∧ i = .segStart (l.drop 2)) ∨
    (slice l 0 2 = contMarker ∧ i = .segCont (l.drop 2)) := by
  simp only [decodeLine] at h
  split at h
  · cases h
  · split at h
    · cases h; exact .inl ⟨‹_›, rfl⟩
    · split at h
      · cases h; exact .inr ⟨‹_›, rfl⟩
      · cases h

end Sys2Proof.Machine
end

