-- ==== Sys2Proof/Laws/Engine.lean ====
section
/-! SUPPORT. Everything the UART accesses, the two engines and one step of the whole can do (R10, R44, R45,
R47), said once. -/

namespace Sys2Proof.Machine

/-- A read takes the first byte before the time limit, or nothing once the limit is reached (R45). -/
theorem uartRead_cases (t : Nat) (s : State) :
    (∃ tick b rest, s.source = (tick, b) :: rest ∧ s.now < t ∧ tick < t ∧
      uartRead t s = (some b, { s with now := max s.now tick, source := rest })) ∨
    (uartRead t s = (none, waitUntil t s) ∧ (t ≤ s.now ∨ s.source = [] ∨
      ∃ tick b rest, s.source = (tick, b) :: rest ∧ t ≤ tick)) := by
  unfold uartRead
  split
  · rename_i hn
    split
    · rename_i tick b rest hs
      split
      · exact .inl ⟨tick, b, rest, hs, hn, ‹_›, rfl⟩
      · exact .inr ⟨rfl, .inr (.inr ⟨tick, b, rest, hs, by omega⟩)⟩
    · exact .inr ⟨rfl, .inr (.inl ‹_›)⟩
  · refine .inr ⟨?_, .inl (by omega)⟩
    have h : max s.now t = s.now := by omega
    simp [waitUntil, h]

/-- An answer of the sink changes nothing but the answers left (R44). -/
theorem sinkAnswer_cases (s : State) :
    (∃ a rest, s.sinkPlan = a :: rest ∧ sinkAnswer s = (a, { s with sinkPlan := rest })) ∨
    (s.sinkPlan = [] ∧ sinkAnswer s = (Config.sinkAnswer s.draws, { s with draws := s.draws + 1 })) := by
  unfold sinkAnswer
  split
  · exact .inl ⟨_, _, ‹_›, rfl⟩
  · exact .inr ⟨‹_›, rfl⟩

/-- An accepted byte is on the line; otherwise nothing is (R44). -/
theorem uartWrite_cases (b : Byte) (s : State) :
    (sinkAnswer s).1 = .accept ∧
      uartWrite b s = (.accept, { (sinkAnswer s).2 with sent := (sinkAnswer s).2.sent ++ [b] }) ∨
    (sinkAnswer s).1 ≠ .accept ∧ uartWrite b s = sinkAnswer s := by
  unfold uartWrite
  rcases h : sinkAnswer s with ⟨a, s'⟩
  cases a <;> simp

/-- The TX engine's step (R120, R130, R131). -/
theorem txStep_cases (s : State) :
    (s.txsegs[s.txi]? = none ∧ txStep s = .next (finish stOk [] s)) ∨
    (∃ l, s.txsegs[s.txi]? = some l ∧ l[s.txj]? = none ∧ txStep s = .next s) ∨
    ∃ l b, s.txsegs[s.txi]? = some l ∧ l[s.txj]? = some b ∧
      ((∃ s', uartWrite b (txDelay s) = (.accept, s') ∧ txStep s = .next (txAccepted l.length s')) ∨
       (∃ s', uartWrite b (txDelay s) = (.ioerr, s') ∧ txStep s = .next (finish stIoError [] s')) ∨
       (∃ s', uartWrite b (txDelay s) = (.hold, s') ∧ txStep s = .next s')) := by
  unfold txStep
  rcases hl : s.txsegs[s.txi]? with _ | l
  · exact .inl ⟨rfl, rfl⟩
  · rcases hb : l[s.txj]? with _ | b
    · exact .inr (.inl ⟨l, rfl, hb, by simp [hb]⟩)
    · refine .inr (.inr ⟨l, b, rfl, hb, ?_⟩)
      rcases hw : uartWrite b (txDelay s) with ⟨_ | _ | _, s'⟩
      · exact .inl ⟨s', rfl, by simp [hb, hw]⟩
      · exact .inr (.inl ⟨s', rfl, by simp [hb, hw]⟩)
      · exact .inr (.inr ⟨s', rfl, by simp [hb, hw]⟩)

/-- The state after an accepted byte: within the line, at the next line, or finished (R120). -/
theorem txAccepted_cases (len : Nat) (s : State) :
    (s.txj + 1 ≠ len ∧ txAccepted len s = { s with txj := s.txj + 1 }) ∨
    (s.txj + 1 = len ∧ s.txi + 1 < s.txsegs.length ∧ txAccepted len s =
      { s with txi := s.txi + 1, txj := 0, txwake := s.now + s.params.contDelay }) ∨
    (s.txj + 1 = len ∧ s.txsegs.length ≤ s.txi + 1 ∧ txAccepted len s =
      finish stOk [] { s with txi := s.txi + 1, txj := 0, txwake := s.now + s.params.contDelay }) := by
  simp only [txAccepted]
  split
  · split
    · exact .inr (.inl ⟨‹_›, ‹_›, rfl⟩)
    · exact .inr (.inr ⟨‹_›, by omega, rfl⟩)
  · exact .inl ⟨‹_›, rfl⟩

/-- A complete line is discarded or is one of the two segments (R154 to R157). -/
theorem takeLine_cases (l : List Byte) (ov : Bool) (s : State) :
    takeLine l ov s = .next s ∨
    ∃ t, ov = false ∧ (takeLine l ov s = execSegStart t s ∨ takeLine l ov s = execSegCont t s) := by
  unfold takeLine
  cases ov with
  | true => exact .inl rfl
  | false =>
    cases h : decodeLine (stripCr l) with
    | error e => exact .inl rfl
    | ok i =>
      refine .inr ⟨(stripCr l).drop 2, rfl, ?_⟩
      rcases decodeLine_ok _ _ h with ⟨-, rfl⟩ | ⟨-, rfl⟩
      · exact .inl rfl
      · exact .inr rfl

/-- The RX engine's step (R152, R153, R154, R167). -/
theorem rxStep_cases (s : State) :
    ((s.deadline ≤ s.now ∨ s.source = [] ∨ ∃ tick b rest, s.source = (tick, b) :: rest ∧ s.deadline ≤ tick) ∧
      rxStep s = .next (finish stNoData [] (waitUntil s.deadline s))) ∨
    ∃ tick b rest, s.source = (tick, b) :: rest ∧ s.now < s.deadline ∧ tick < s.deadline ∧
      ((b ≠ lf ∧ rxStep s = .next (addToLine b { s with now := max s.now tick, source := rest })) ∨
       (b = lf ∧ rxStep s = takeLine s.line s.lovf
          { s with now := max s.now tick, source := rest, line := [], lovf := false })) := by
  unfold rxStep
  rcases uartRead_cases s.deadline s with ⟨tick, b, rest, hs, hn, ht, hr⟩ | ⟨hr, h⟩
  · refine .inr ⟨tick, b, rest, hs, hn, ht, ?_⟩
    rw [hr]
    by_cases hb : b = lf
    · exact .inr ⟨hb, by simp [hb]⟩
    · exact .inl ⟨hb, by simp [hb]⟩
  · exact .inl ⟨h, by rw [hr]⟩

/-- The next state of an engine's or the host's turn, whichever has it. -/
theorem engineStep_idle (s : State) (h : s.ctrl = .idle) : engineStep s = hostStep s := by
  simp [engineStep, h]

theorem engineStep_frsend (s : State) (h : s.ctrl = .busy .frsend) : engineStep s = txStep s := by
  simp [engineStep, h]

theorem engineStep_frrecv (s : State) (h : s.ctrl = .busy .frrecv) : engineStep s = rxStep s := by
  simp [engineStep, h]

/-- One step of the whole: time, an engine, `RESET`, a descriptor refused or run, or an instruction given by
name (R6, R26, R47, R201, R230). -/
theorem step_cases (s : State) :
    (∃ n rest, s.agenda = .tick n :: rest ∧ step s = .next { s with now := s.now + n, agenda := rest }) ∨
    (∃ rest, s.agenda = .reset :: rest ∧ step s = .next (resetEvent { s with agenda := rest })) ∨
    (∃ rest, s.agenda = .proceed :: rest ∧ step s = engineStep { s with agenda := rest }) ∨
    (step s = engineStep s ∧ (s.agenda = [] ∨ ¬ s.accepting)) ∨
    (∃ rest, s.accepting ∧ ((∃ d, s.agenda = .command d :: rest) ∨ ∃ i, s.agenda = .perform i :: rest) ∧
      (step s = execIllegal { s with agenda := rest } ∨ ∃ i, step s = exec i { s with agenda := rest })) := by
  unfold step systemStep
  split
  · rename_i h; exact .inr (.inr (.inr (.inl ⟨rfl, .inl h⟩)))
  · rename_i n rest h; exact .inl ⟨n, rest, h, rfl⟩
  · rename_i rest h; exact .inr (.inr (.inl ⟨rest, h, rfl⟩))
  · rename_i rest h; exact .inr (.inl ⟨rest, h, rfl⟩)
  · rename_i d rest h
    by_cases ha : s.accepting
    · refine .inr (.inr (.inr (.inr ⟨rest, ha, .inl ⟨d, h⟩, ?_⟩)))
      rw [if_pos ha]
      unfold runDescriptor
      cases decode d with
      | ok i => exact .inr ⟨i, rfl⟩
      | error e => exact .inl rfl
    · exact .inr (.inr (.inr (.inl ⟨by rw [if_neg ha], .inr ha⟩)))
  · rename_i i rest h
    by_cases ha : s.accepting
    · refine .inr (.inr (.inr (.inr ⟨rest, ha, .inr ⟨i, h⟩, ?_⟩)))
      rw [if_pos ha]
      unfold runNamed
      split
      · exact .inr ⟨i, rfl⟩
      · exact .inl rfl
    · exact .inr (.inr (.inr (.inl ⟨by rw [if_neg ha], .inr ha⟩)))

end Sys2Proof.Machine
end

