-- ==== Sys2Proof/Laws/Effects.lean ====
section
/-! SUPPORT. The whole effect of one step of each engine: which fields it may change, and how `CTRL` and the
results can change with them (R120, R150, R206). Later proofs cite these in place of the engines' texts. -/

namespace Sys2Proof.Machine

/-- What a line can do to the state when the RX engine takes it: only the frame in progress, `CTRL` and the
results change, and the command ends only with the frame it leaves in `ACC` and `EXP`, complete (R161 to
R166). -/
def LineEffect (s t : State) : Prop :=
  t = { s with rxph := t.rxph, exp := t.exp, acc := t.acc, ctrl := t.ctrl, results := t.results } ∧
  ((t.ctrl = s.ctrl ∧ t.results = s.results) ∨
    (t.ctrl = .idle ∧ t.acc.length = t.exp.toNat ∧
      (crc16 t.acc t.exp.toNat true = 0 ∨ s.params.crcPolicy = .accept) ∧
      t.results = s.results ++ [frameStatus (crc16 t.acc t.exp.toNat true) ::
        (be16 (t.exp - 2) ++ be16 (crc16 t.acc t.exp.toNat true) ++ t.acc.take (t.exp.toNat - 2))]))

theorem lineEffect_same (s : State) : LineEffect s s := ⟨rfl, .inl ⟨rfl, rfl⟩⟩

theorem completeFrame_effect (s : State) (h : s.acc.length = s.exp.toNat) : LineEffect s (completeFrame s) := by
  rcases completeFrame_cases s with ⟨-, -, e⟩ | ⟨hp, e⟩ <;> rw [e]
  · exact ⟨by simp [abandonFrame], .inl ⟨by simp, by simp⟩⟩
  · exact ⟨by simp [finish], .inr ⟨by simp, h, hp, by simp⟩⟩

theorem appendData_effect (x : List Byte) (s : State) : LineEffect s (appendData x s) := by
  rcases appendData_cases x s with ⟨-, e⟩ | ⟨hl, e⟩ | ⟨-, e⟩ <;> rw [e]
  · exact ⟨by simp [abandonFrame], .inl ⟨by simp, by simp⟩⟩
  · obtain ⟨h1, h2⟩ := completeFrame_effect { s with acc := s.acc ++ x } (by simpa using hl)
    exact ⟨by rw [h1], h2⟩
  · exact ⟨rfl, .inl ⟨rfl, rfl⟩⟩

theorem takeStart_effect (d : List Byte) (s : State) : LineEffect s (takeStart d s) := by
  rcases takeStart_cases d s with e | ⟨-, -, -, e⟩ <;> rw [e]
  · exact lineEffect_same s
  · obtain ⟨h1, h2⟩ := appendData_effect (d.drop 2) { s with rxph := .accum, exp := rd16 d 0, acc := [] }
    exact ⟨by rw [h1], h2⟩

theorem takeCont_effect (d : List Byte) (s : State) : LineEffect s (takeCont d s) := by
  rcases takeCont_cases d s with ⟨-, e⟩ | ⟨-, e⟩ <;> rw [e]
  · exact lineEffect_same s
  · exact appendData_effect d s

theorem takeSegment_effect (take : List Byte → State → State) (h : ∀ d s, LineEffect s (take d s))
    (text : List Byte) (s : State) : LineEffect s (takeSegment take text s) := by
  rcases takeSegment_cases take text s with e | ⟨d, -, -, e⟩ <;> rw [e]
  · exact lineEffect_same s
  · exact h d s

/-- A line that ends while `FRRECV` runs (R154 to R166). -/
theorem takeLine_effect (l : List Byte) (ov : Bool) (s : State) (hc : s.ctrl = .busy .frrecv) :
    ∃ t, takeLine l ov s = .next t ∧ LineEffect s t := by
  rcases takeLine_cases l ov s with h | ⟨u, -, h | h⟩
  · exact ⟨_, h, lineEffect_same s⟩
  · exact ⟨_, by rw [h, execSegStart, hc], takeSegment_effect _ takeStart_effect _ _⟩
  · exact ⟨_, by rw [h, execSegCont, hc], takeSegment_effect _ takeCont_effect _ _⟩

theorem addToLine_effect (b : Byte) (s : State) :
    addToLine b s = { s with line := (addToLine b s).line, lovf := (addToLine b s).lovf } := by
  unfold addToLine
  split <;> rfl

/-- Everything a step of the RX engine can do (R10, R150). -/
theorem rx_effect (s t : State) (hc : s.ctrl = .busy .frrecv) (h : engineStep s = .next t) :
    ((s.deadline ≤ s.now ∨ s.source = [] ∨ ∃ tick b rest, s.source = (tick, b) :: rest ∧ s.deadline ≤ tick) ∧
      t = finish stNoData [] (waitUntil s.deadline s)) ∨
    ∃ tick b rest, s.source = (tick, b) :: rest ∧ s.now < s.deadline ∧ tick < s.deadline ∧
      ((b ≠ lf ∧ t = addToLine b { s with now := max s.now tick, source := rest }) ∨
       (b = lf ∧
        LineEffect { s with now := max s.now tick, source := rest, line := [], lovf := false } t)) := by
  rw [engineStep_frrecv s hc] at h
  rcases rxStep_cases s with ⟨h1, h2⟩ | ⟨tick, b, rest, hs, hn, ht, ⟨hb, h2⟩ | ⟨hb, h2⟩⟩
  · rw [h2] at h; cases h; exact .inl ⟨h1, rfl⟩
  · rw [h2] at h; cases h; exact .inr ⟨tick, b, rest, hs, hn, ht, .inl ⟨hb, rfl⟩⟩
  · obtain ⟨t', h3, h4⟩ := takeLine_effect s.line s.lovf
      { s with now := max s.now tick, source := rest, line := [], lovf := false } hc
    rw [h2, h3] at h; cases h
    exact .inr ⟨tick, b, rest, hs, hn, ht, .inr ⟨hb, h4⟩⟩

/-- The wait before a byte moves nothing but `Now()` (R129). -/
theorem txDelay_effect (s : State) : txDelay s = { s with now := (txDelay s).now } := by
  unfold txDelay
  split <;> rfl

/-- An answer of the sink after the wait: only `Now()` and the answers left change (R44, R129). -/
theorem txAnswer_effect (s : State) : ∃ a p n,
    sinkAnswer (txDelay s) = (a, { s with now := (txDelay s).now, sinkPlan := p, draws := n }) := by
  rw [txDelay_effect s]
  rcases sinkAnswer_cases { s with now := (txDelay s).now } with ⟨a, r, -, e⟩ | ⟨-, e⟩ <;>
    exact ⟨_, _, _, e⟩

/-- Everything a step of the TX engine can do to the state around its write (R120, R130, R131). -/
theorem tx_effect (s t : State) (hc : s.ctrl = .busy .frsend) (h : engineStep s = .next t) :
    t = { s with
      ctrl := t.ctrl, txi := t.txi, txj := t.txj, txwake := t.txwake, now := t.now
      sinkPlan := t.sinkPlan, draws := t.draws, sent := t.sent, results := t.results } ∧
    ((t.ctrl = s.ctrl ∧ t.results = s.results) ∨
      (t.ctrl = .idle ∧ ∃ c, (c = stOk ∨ c = stIoError) ∧ t.results = s.results ++ [[c]])) := by
  rw [engineStep_frsend s hc] at h
  obtain ⟨a, p, n, ha⟩ := txAnswer_effect s
  have hw : ∀ b s', uartWrite b (txDelay s) = (.accept, s') →
      s' = { s with now := (txDelay s).now, sinkPlan := p, draws := n, sent := s.sent ++ [b] } := by
    intro b s' hu
    unfold uartWrite at hu; rw [ha] at hu
    cases a <;> simp at hu
    exact hu.symm
  have hw' : ∀ b r s', r ≠ .accept → uartWrite b (txDelay s) = (r, s') →
      s' = { s with now := (txDelay s).now, sinkPlan := p, draws := n } := by
    intro b r s' hr hu
    unfold uartWrite at hu; rw [ha] at hu
    cases a <;> simp at hu
    · exact absurd hu.1.symm hr
    · exact hu.2.symm
    · exact hu.2.symm
  rcases txStep_cases s with ⟨-, e⟩ | ⟨l, -, -, e⟩ | ⟨l, b, -, -, ⟨s', hu, e⟩ | ⟨s', hu, e⟩ | ⟨s', hu, e⟩⟩ <;>
    rw [e] at h <;> cases h
  · exact ⟨rfl, .inr ⟨rfl, stOk, .inl rfl, rfl⟩⟩
  · exact ⟨rfl, .inl ⟨rfl, rfl⟩⟩
  · rw [hw b s' hu]
    rcases txAccepted_cases l.length { s with
        now := (txDelay s).now, sinkPlan := p, draws := n, sent := s.sent ++ [b] } with
      ⟨-, e⟩ | ⟨-, -, e⟩ | ⟨-, -, e⟩ <;> rw [e]
    · exact ⟨rfl, .inl ⟨rfl, rfl⟩⟩
    · exact ⟨rfl, .inl ⟨rfl, rfl⟩⟩
    · exact ⟨rfl, .inr ⟨rfl, stOk, .inl rfl, rfl⟩⟩
  · rw [hw' b _ s' (by decide) hu]
    exact ⟨rfl, .inr ⟨rfl, stIoError, .inr rfl, rfl⟩⟩
  · rw [hw' b _ t (by decide) hu]
    exact ⟨rfl, .inl ⟨rfl, rfl⟩⟩

end Sys2Proof.Machine
end

