-- ==== Sys2Proof/Laws/PerInstr.lean ====
section
/-! SUPPORT. Statements made of each constructor of Instr: the length of its words (R79, and the table's
`length` column). -/

namespace Sys2Proof.Laws

/-- The length the table or R79 gives the instruction's words. -/
def wordLength : Instr → Nat
  | .crc16 _ data      => 4 + data.length
  | .frsend payload    => 3 + payload.length
  | .frrecv            => 1
  | .hdrbld _ _ _ _    => 7
  | .hdrprs _ _ _ r    => 7 + r.length
  | .reserved00 rest   => 1 + rest.length
  | .reservedHi _ rest => 1 + rest.length
  | .segStart text     => 2 + text.length + 1
  | .segCont text      => 2 + text.length + 1
  | .frame payload _   => payload.length + 4
  | .nmpRead _ _       => 8
  | .nmpReadRsp _ _ _  => 8
  | .nmpWrite _ _      => 8
  | .nmpWriteRsp _ _ _ => 8
  | .sendreq _ _       => 0
  | .ping              => 0

namespace EncodedLength

/-- An instruction's words have the length its layout gives. -/
def Statement (i : Instr) : Prop := (encode i).length = wordLength i

theorem crc16 (pad : Bool) (data : List Byte) : Statement (.crc16 pad data) := by
  simp [Statement, encode, wordLength]; omega
theorem frsend (payload : List Byte) : Statement (.frsend payload) := by
  simp [Statement, encode, wordLength]; omega
theorem frrecv : Statement .frrecv := rfl
theorem hdrbld (op : Byte) (group : U16) (id : Byte) (blen : U16) : Statement (.hdrbld op group id blen) := rfl
theorem hdrprs (eop : Byte) (egroup : U16) (eid : Byte) (resp : List Byte) :
    Statement (.hdrprs eop egroup eid resp) := by
  simp [Statement, encode, wordLength]; omega
theorem reserved00 (rest : List Byte) : Statement (.reserved00 rest) := by
  simp [Statement, encode, wordLength]; omega
theorem reservedHi (opc : Byte) (rest : List Byte) : Statement (.reservedHi opc rest) := by
  simp [Statement, encode, wordLength]; omega
theorem segStart (text : List Byte) : Statement (.segStart text) := by
  simp [Statement, encode, wordLength, startMarker]; omega
theorem segCont (text : List Byte) : Statement (.segCont text) := by
  simp [Statement, encode, wordLength, contMarker]; omega
theorem frame (payload : List Byte) (trailer : U16) : Statement (.frame payload trailer) := by
  simp [Statement, encode, wordLength]; omega
theorem nmpRead (len : U16) (seq : Byte) : Statement (.nmpRead len seq) := rfl
theorem nmpReadRsp (flags : Byte) (len : U16) (seq : Byte) : Statement (.nmpReadRsp flags len seq) := rfl
theorem nmpWrite (len : U16) (seq : Byte) : Statement (.nmpWrite len seq) := rfl
theorem nmpWriteRsp (flags : Byte) (len : U16) (seq : Byte) : Statement (.nmpWriteRsp flags len seq) := rfl
theorem sendreq (header body : List Byte) : Statement (.sendreq header body) := rfl
theorem ping : Statement .ping := rfl

end EncodedLength

end Sys2Proof.Laws
end

