-- ==== Sys2Proof/Laws/Source.lean ====
section
/-! SUPPORT. The byte source is split at the present into what has come and what is still to come, and
arriving bytes keep it in arrival order (R32, R45). -/

namespace Sys2Proof.Machine

/-- The two parts are the source. -/
@[simp] theorem waiting_append_coming (t : Nat) (source : List (Nat × Byte)) :
    waiting t source ++ coming t source = source := List.takeWhile_append_dropWhile

/-- Every byte that waits has come. -/
theorem waiting_le (t : Nat) (source : List (Nat × Byte)) : ∀ x ∈ waiting t source, x.1 ≤ t := by
  intro x hx
  simpa using List.mem_takeWhile_imp hx

/-- The first byte still to come has not. -/
theorem coming_head (t : Nat) (source : List (Nat × Byte)) (x : Nat × Byte)
    (h : (coming t source).head? = some x) : t < x.1 := by
  have := List.head?_dropWhile_not (fun x : Nat × Byte => decide (x.1 ≤ t)) source
  rw [show source.dropWhile (fun x => decide (x.1 ≤ t)) = coming t source from rfl, h] at this
  simpa using this

/-- Arriving bytes keep the source in arrival order. -/
theorem arrive_sorted (bytes : List Byte) (s : State) (h : s.source.Pairwise (·.1 ≤ ·.1)) :
    (arrive bytes s).source.Pairwise (·.1 ≤ ·.1) := by
  have hs : (waiting s.now s.source ++ coming s.now s.source).Pairwise (·.1 ≤ ·.1) := by simpa using h
  obtain ⟨hw, hc, -⟩ := List.pairwise_append.mp hs
  have hlate : ∀ x ∈ coming s.now s.source, s.now ≤ x.1 := by
    intro x hx
    cases hl : coming s.now s.source with
    | nil => rw [hl] at hx; cases hx
    | cons y ys =>
      have hy := coming_head s.now s.source y (by rw [hl]; rfl)
      rw [hl] at hx hc
      rcases List.mem_cons.mp hx with rfl | hx
      · omega
      · have := List.rel_of_pairwise_cons hc hx
        omega
  have hm : ∀ x ∈ bytes.map (fun b => (s.now, b)), x.1 = s.now := by simp
  simp only [arrive_fields]
  refine List.pairwise_append.mpr ⟨hw, List.pairwise_append.mpr ⟨?_, hc, ?_⟩, ?_⟩
  · exact List.pairwise_map.mpr (List.pairwise_of_forall fun _ _ => Nat.le_refl _)
  · intro x hx y hy
    rw [hm x hx]
    exact hlate y hy
  · intro x hx y hy
    have h1 := waiting_le _ _ x hx
    rcases List.mem_append.mp hy with hy | hy
    · rw [hm y hy]; exact h1
    · exact Nat.le_trans h1 (hlate y hy)

end Sys2Proof.Machine
end

