-- ==== Sys2Proof/Tests/Slice0.lean ====
section
/-! SUPPORT. The model's own tests: the WellFormed smoke, decodings of words written out from the spec's
layouts, one-step tests with results taken from 95_test_vectors.md, and a witness for each statement that has
hypotheses. -/

namespace Sys2Proof.Tests
set_option Elab.async false
open Sys2Proof Sys2Proof.Machine

/-- The state an instruction gives, or the old one where it gives none. -/
def run1 (i : Instr) (s : State) : State := match exec i s with | .next t => t | _ => s
/-- The state a step gives, or the old one where it gives none. -/
def step1 (s : State) : State := match step s with | .next t => t | _ => s

/-- `FRRECV` runs and has read `l`. -/
def rx (l : List Byte) (src : List (Nat × Byte)) : State :=
  { State.reset with ctrl := .busy .frrecv, deadline := 10000, line := l, source := src }
/-- `FRSEND` runs over two short lines, at byte `j` of line `i`. -/
def tx (i j : Nat) (plan : List SinkAnswer) : State :=
  { State.reset with
    ctrl := .busy .frsend, txsegs := [[0x06, 0x09, 0x0A], [0x04, 0x14, 0x0A]]
    txi := i, txj := j, txwake := 120, now := 100, sinkPlan := plan }
/-- The host has said `a`, and nothing else has happened. -/
def said (a : List Input) : State := { State.reset with agenda := a }

/-- "AAoBAAAAAAAAAVfy" (95 V3, Rsp), and the same with its trailer's last bit changed (V3.5). -/
def rspText : List Byte :=
  [0x41, 0x41, 0x6F, 0x42, 0x41, 0x41, 0x41, 0x41, 0x41, 0x41, 0x41, 0x41, 0x41, 0x56, 0x66, 0x79]
def badText : List Byte := rspText.dropLast ++ [0x7A]
/-- The payload of Rsp (95 V3). -/
def rspPayload : List Byte := [0x01, 0x00, 0x00, 0x00, 0x00, 0x00, 0x00, 0x01]

/-! ## Well-formedness: one ill-formed term for each check -/

theorem test_wf_crc16_too_long (d : List Byte) (h : d.length = 65536) : (Instr.crc16 false d).wf = false := by
  simp [Instr.wf, h]
theorem test_wf_frsend_too_long (p : List Byte) (h : p.length = 65536) : (Instr.frsend p).wf = false := by
  simp [Instr.wf, h]
theorem test_wf_hdrprs_too_long (r : List Byte) (h : r.length = 65536) :
    (Instr.hdrprs 1 0 1 r).wf = false := by
  simp [Instr.wf, h]
theorem test_wf_reserved_is_assigned : (Instr.reservedHi 0x05 []).wf = false := by decide
theorem test_wf_start_text_has_lf : (Instr.segStart [0x41, 0x0A]).wf = false := by decide
theorem test_wf_cont_text_has_lf : (Instr.segCont [0x0A]).wf = false := by decide
theorem test_wf_frame_too_long (p : List Byte) (h : p.length = 65534) : (Instr.frame p 0).wf = false := by
  simp [Instr.wf, h]
theorem test_wf_sendreq_header_short : (Instr.sendreq [0x00] []).wf = false := by decide
theorem test_wf_sendreq_body_too_long (b : List Byte) (h : b.length = 65528) :
    (Instr.sendreq (List.replicate 8 0x00) b).wf = false := by
  simp [Instr.wf, h]

/-! ## Decoding: a word of every row (R62 to R67, R72, R74, R75), and every rejection -/

theorem test_decode_crc16 :
    decode [0x01, 0x01, 0x00, 0x02, 0xAA, 0xBB] = .ok (.crc16 true [0xAA, 0xBB]) := by decide +kernel
theorem test_decode_frsend : decode [0x02, 0x00, 0x01, 0x7F] = .ok (.frsend [0x7F]) := by decide +kernel
theorem test_decode_frrecv : decode [0x03] = .ok .frrecv := by decide +kernel
theorem test_decode_hdrbld :
    decode [0x04, 0x02, 0x12, 0x34, 0x05, 0x56, 0x78] = .ok (.hdrbld 0x02 0x1234 0x05 0x5678) := by
  decide +kernel
theorem test_decode_hdrprs :
    decode [0x05, 0x03, 0x12, 0x34, 0x07, 0x00, 0x01, 0x99] = .ok (.hdrprs 0x03 0x1234 0x07 [0x99]) := by
  decide +kernel
theorem test_decode_reserved00 : decode [0x00, 0x11] = .ok (.reserved00 [0x11]) := by decide +kernel
theorem test_decode_reservedHi :
    decode [0x06] = .ok (.reservedHi 0x06 []) ∧ decode [0xFF, 0x01] = .ok (.reservedHi 0xFF [0x01]) := by
  decide +kernel
theorem test_decode_segStart :
    decodeWire [0x06, 0x09, 0x41, 0x41, 0x41, 0x3D, 0x0A] = .ok (.segStart [0x41, 0x41, 0x41, 0x3D]) := by
  decide +kernel
theorem test_decode_segCont : decodeWire [0x04, 0x14, 0x41, 0x0A] = .ok (.segCont [0x41]) := by
  decide +kernel
/-- V2.3's frame. -/
theorem test_decode_frame : decodeFrame [0x00, 0x03, 0xFF, 0x1E, 0xF0] = .ok (.frame [0xFF] 0x1EF0) := by
  decide +kernel
theorem test_decode_nmpRead :
    decodeHeader [0x00, 0x00, 0x12, 0x34, 0x00, 0x00, 0x2A, 0x01] = .ok (.nmpRead 0x1234 0x2A) := by
  decide +kernel
theorem test_decode_nmpReadRsp :
    decodeHeader [0x01, 0x7F, 0x12, 0x34, 0x00, 0x00, 0x99, 0x01] = .ok (.nmpReadRsp 0x7F 0x1234 0x99) := by
  decide +kernel
theorem test_decode_nmpWrite :
    decodeHeader [0x02, 0x00, 0x00, 0xD0, 0x00, 0x01, 0x2A, 0x01] = .ok (.nmpWrite 0x00D0 0x2A) := by
  decide +kernel
theorem test_decode_nmpWriteRsp :
    decodeHeader [0x03, 0x00, 0x00, 0x05, 0x00, 0x01, 0x10, 0x01] = .ok (.nmpWriteRsp 0x00 0x0005 0x10) := by
  decide +kernel
/-- V1.26 to V1.28, V2.11, V4.5, V4.13, V5.4, V5.5. -/
theorem test_decode_rejects_descriptors :
    decode [] = .error .emptyDescriptor ∧ decode [0x01, 0x02, 0x00, 0x00] = .error .reservedBits ∧
    decode [0x01, 0x01, 0x00, 0x05, 0x31, 0x32] = .error .badLength ∧
    decode [0x01, 0x01, 0x00] = .error .badLength ∧
    decode [0x02, 0x00, 0x03, 0xAA, 0xBB] = .error .badLength ∧
    decode [0x03, 0x00] = .error .badLength ∧
    decode [0x04, 0x00, 0x00, 0x00, 0x01, 0x00] = .error .badLength ∧
    decode [0x05, 0x01, 0x00, 0x00, 0x01, 0x00, 0x09, 0x01, 0x00] = .error .badLength := by decide +kernel
theorem test_decode_rejects_wire :
    decodeWire [0x04, 0x09, 0x0A] = .error .noMarker ∧ decodeWire [0x06, 0x09] = .error .badLineEnd ∧
    decodeWire [0x06, 0x09, 0x0A, 0x41, 0x0A] = .error .badLineEnd ∧
    decodeFrame [0x00, 0x02, 0x00] = .error .shortFrame ∧
    decodeFrame [0x00, 0x03, 0x00, 0x00] = .error .badPrefix := by decide +kernel
theorem test_decode_rejects_headers :
    decodeHeader [0x00] = .error .badHeaderLength ∧
    decodeHeader [0x04, 0x00, 0x00, 0x00, 0x00, 0x00, 0x00, 0x01] = .error .unknownHeader ∧
    decodeHeader [0x02, 0x01, 0x00, 0x00, 0x00, 0x01, 0x00, 0x01] = .error .badFlags := by decide +kernel

/-! ## Words as the opcode table numbers them (log 13), as the first step after reset -/

theorem test_table_words :
    decodeTableWord 8 0x00 = some (.reserved00 []) ∧ decodeTableWord 8 0x01 = some (.crc16 false []) ∧
    decodeTableWord 8 0x02 = some (.frsend []) ∧ decodeTableWord 8 0x03 = some .frrecv ∧
    decodeTableWord 8 0x04 = some (.hdrbld 0 0 0 0) ∧ decodeTableWord 8 0x05 = some (.hdrprs 0 0 0 []) ∧
    decodeTableWord 8 0xFF = some (.reservedHi 0xFF []) ∧
    decodeTableWord 16 0x0609 = some (.segStart []) ∧ decodeTableWord 16 0x0414 = some (.segCont []) ∧
    decodeTableWord 64 0x0110010005000003 = some (.nmpWriteRsp 0x00 0x0005 0x10) := by decide +kernel
theorem test_first_step_runs_the_word :
    (step1 (State.reset.withFetchWord 8 0x00)).results = [[0x07]] ∧
    (step1 (State.reset.withFetchWord 8 0x01)).results = [[0x00, 0x00, 0x00]] ∧
    (step1 (State.reset.withFetchWord 8 0x02)).ctrl = .busy .frsend ∧
    (step1 (State.reset.withFetchWord 8 0x03)).ctrl = .busy .frrecv ∧
    (step1 (State.reset.withFetchWord 8 0x04)).seq = 0x01 ∧
    (step1 (State.reset.withFetchWord 8 0x05)).results = [[0x04]] := by decide +kernel
theorem test_first_step_runs_the_line :
    (step1 (State.reset.withFetchWord 16 0x0609)).line = [] ∧
    (step1 (State.reset.withFetchWord 16 0x0609)).agenda = [] ∧
    (step1 (State.reset.withFetchWord 64 0x0110010005000003)).results =
      [[0x00, 0x03, 0x00, 0x00, 0x05, 0x00, 0x01, 0x10, 0x01, 0x00, 0x00]] := by decide +kernel

/-! ## CRC16 -/

/-- V1.13, V1.16. -/
theorem test_crc16_check_values :
    (run1 (.crc16 true [0x31, 0x32, 0x33, 0x34, 0x35, 0x36, 0x37, 0x38, 0x39]) State.reset).results =
      [[0x00, 0x31, 0xC3]] ∧
    (run1 (.crc16 false [0x31, 0x32, 0x33, 0x34, 0x35, 0x36, 0x37, 0x38, 0x39]) State.reset).results =
      [[0x00, 0xBE, 0xEF]] := by decide +kernel
/-- R107, and V1.8, V1.10, V1.12. -/
theorem test_crc_steps :
    crcbit 0x8000 false = 0x1021 ∧ crcbit 0x8000 true = 0x1020 ∧ crcbit 0xFFFF true = 0xEFDE ∧
    crcbit 0x7FFF false = 0xFFFE ∧ crcbyte 0 0x80 = 0x0080 ∧ crc16 [0x80] 1 true = 0x9188 ∧
    crc16 [0xFF] 1 true = 0x1EF0 ∧ crc16 [0x12, 0x34] 2 true = 0x13C6 := by decide +kernel

/-! ## FRSEND -/

/-- V2.5: the line of a ping request. -/
theorem test_frsend_ping_line :
    (run1 (.frsend [0x00, 0x00, 0x00, 0x00, 0x00, 0x00, 0x00, 0x01]) State.reset).txsegs =
      [[0x06, 0x09, 0x41, 0x41, 0x6F, 0x41, 0x41, 0x41, 0x41, 0x41, 0x41, 0x41, 0x41, 0x41, 0x41, 0x52, 0x41,
        0x68, 0x0A]] := by decide +kernel
/-- V2.7 and R134: the last five bytes of the 94-byte payload's frame, past the first 93, as its second
line. -/
theorem test_second_line :
    contLine (b64enc [0x5B, 0x5C, 0x5D, 0x3C, 0x92]) =
      [0x04, 0x14, 0x57, 0x31, 0x78, 0x64, 0x50, 0x4A, 0x49, 0x3D, 0x0A] ∧
    seglines [[0x41], [0x42], [0x43]] = [[0x06, 0x09, 0x41, 0x0A], [0x04, 0x14, 0x42, 0x0A],
      [0x04, 0x14, 0x43, 0x0A]] ∧
    (split124 (List.replicate 128 0x41)).map List.length = [124, 4] := by decide +kernel
/-- V2.10. -/
theorem test_frsend_too_long (p : List Byte) (h : p.length = 4097) :
    (run1 (.frsend p) State.reset).results = [[0x05]] := by
  have hp : State.reset.params.txMaxPayload < p.length := by rw [h]; decide
  simp only [run1, exec, execFrsend, startFrsend, if_pos hp]
  decide +kernel
/-- R129, V2.14: the sink took the first line's `LF` at 100; the next marker is written at 120. -/
theorem test_tx_waits : (step1 (tx 0 2 [.accept])).txwake = 120 ∧ (step1 (tx 1 0 [.accept])).now = 120 ∧
    (step1 (tx 1 0 [.accept])).sent = [0x04] := by decide +kernel
/-- V2.13, R131. -/
theorem test_tx_ends : (step1 (tx 1 0 [.ioerr])).results = [[0x06]] ∧ (step1 (tx 1 0 [.ioerr])).sent = [] ∧
    (step1 (tx 1 2 [.accept])).results = [[0x00]] ∧ (step1 (tx 1 2 [.accept])).ctrl = .idle := by
  decide +kernel

/-! ## FRRECV and the segment rows -/

theorem test_frrecv_starts :
    (run1 .frrecv { State.reset with now := 7, acc := [0x01], lovf := true }).deadline = 10007 ∧
    (run1 .frrecv { State.reset with now := 7, acc := [0x01], lovf := true }).acc = [] := by decide +kernel
/-- V3.2's last line, with the leading `CR` of V3.3. -/
theorem test_rx_good_frame :
    (step1 (rx (0x0D :: 0x06 :: 0x09 :: rspText) [(3, 0x0A), (4, 0x55)])).results =
      [[0x00, 0x00, 0x08, 0x00, 0x00] ++ rspPayload] ∧
    (step1 (rx (0x0D :: 0x06 :: 0x09 :: rspText) [(3, 0x0A), (4, 0x55)])).source = [(4, 0x55)] := by
  decide +kernel
/-- V3.5. -/
theorem test_segStart_crc_warn :
    (run1 (.segStart badText) (rx [] [])).results = [[0x02, 0x00, 0x08, 0x10, 0x21] ++ rspPayload] := by
  decide +kernel
/-- V3.6: under `REJECT` the frame is abandoned. -/
theorem test_segStart_reject :
    (run1 (.segStart badText) { rx [] [] with params := { Params.nominal with crcPolicy := .reject } }).ctrl =
      .busy .frrecv := by decide +kernel
/-- R163 and V3.11. -/
theorem test_segCont_extends :
    (run1 (.segCont [0x41, 0x41, 0x41, 0x42]) { rx [] [] with rxph := .accum, exp := 9, acc := [0x07] }).acc =
      [0x07, 0x00, 0x00, 0x01] ∧
    (run1 (.segCont [0x41, 0x41, 0x41, 0x41]) (rx [] [])).acc = [] := by decide +kernel
/-- V3.4, V3.18: a trailing `CR` and an overflowed line. -/
theorem test_rx_discards :
    (step1 (rx (0x06 :: 0x09 :: rspText ++ [0x0D]) [(3, 0x0A)])).ctrl = .busy .frrecv ∧
    (step1 (rx (List.replicate 127 0x41) [(3, 0x41)])).lovf = true := by decide +kernel
/-- V5.8, V3.17. -/
theorem test_rx_times_out :
    (step1 { rx [] [(0, 0x0A)] with deadline := 0 }).results = [[0x01]] ∧
    (step1 { rx [] [(0, 0x0A)] with deadline := 0 }).source = [(0, 0x0A)] ∧
    (step1 (rx [] [])).now = 10000 := by decide +kernel
/-- R156's own examples. -/
theorem test_b64dec :
    b64dec [0x41, 0x41, 0x3D, 0x41] = none ∧ b64dec [0x41, 0x3D, 0x3D, 0x3D] = none ∧
    b64dec [0x41, 0x41, 0x41, 0x41, 0x3D, 0x3D, 0x3D, 0x3D] = none ∧ b64dec [0x41] = none ∧
    b64dec [] = some [] ∧ b64dec [0x41, 0x41, 0x49, 0x41, 0x41, 0x42, 0x3D, 0x3D] = some [0, 2, 0, 0] := by
  decide +kernel
/-- V2.3's frame, given to a running `FRRECV`. -/
theorem test_frame_completes :
    (run1 (.frame [0xFF] 0x1EF0) (rx [] [])).results = [[0x00, 0x00, 0x01, 0x00, 0x00, 0xFF]] := by
  decide +kernel
/-- V2.3's line, while nothing reads. -/
theorem test_frame_waits :
    ((run1 (.frame [0xFF] 0x1EF0) State.reset).source.map Prod.snd) =
      [0x06, 0x09, 0x41, 0x41, 0x50, 0x2F, 0x48, 0x76, 0x41, 0x3D, 0x0A] := by decide +kernel

/-- R32, R45: bytes that come at 0 are read before one that is to come at 100 and after one that has come. -/
theorem test_arrival_order :
    (run1 (.segStart []) { State.reset with source := [(0, 0x55), (100, 0x66)] }).source =
      [(0, 0x55), (0, 0x06), (0, 0x09), (0, 0x0A), (100, 0x66)] := by decide +kernel

/-! ## Headers -/

/-- V4.4 and V4.3. -/
theorem test_hdrbld :
    (run1 (.hdrbld 0x02 0x0001 0x01 14) { State.reset with seq := 0x10 }).results =
      [[0x00, 0x02, 0x00, 0x00, 0x0E, 0x00, 0x01, 0x10, 0x01]] ∧
    (run1 (.hdrbld 0 0 1 0) { State.reset with seq := 0xFF }).seq = 0x00 := by decide +kernel
/-- V4.8, V4.9's group, V4.10. -/
theorem test_hdrprs :
    (run1 (.hdrprs 0x03 0x0001 0x01
        [0x03, 0x00, 0x00, 0x05, 0x00, 0x01, 0x10, 0x01, 0xA1, 0x62, 0x72, 0x63, 0x00]) State.reset).results =
      [[0x00, 0x03, 0x00, 0x00, 0x05, 0x00, 0x01, 0x10, 0x01, 0x00, 0x05, 0xA1, 0x62, 0x72, 0x63, 0x00]] ∧
    (run1 (.hdrprs 0x03 0x0001 0x01 [0x03, 0x00, 0x00, 0x05, 0x00, 0x02, 0x10, 0x01]) State.reset).results =
      [[0x03, 0x03, 0x00, 0x00, 0x05, 0x00, 0x02, 0x10, 0x01, 0x00, 0x00]] ∧
    (run1 (.hdrprs 1 0 1 [0x01, 0x00, 0x00]) State.reset).results = [[0x04]] := by decide +kernel
/-- R180 and R190, with V4.1's and V4.4's headers. -/
theorem test_request_rows :
    (run1 (.nmpRead 0 0x55) State.reset).results = [[0x00, 0x00, 0x00, 0x00, 0x00, 0x00, 0x00, 0x00, 0x01]] ∧
    (run1 (.nmpWrite 14 0x55) { State.reset with seq := 0x10 }).results =
      [[0x00, 0x02, 0x00, 0x00, 0x0E, 0x00, 0x01, 0x10, 0x01]] := by decide +kernel
/-- V4.11, and R191's fourth example. -/
theorem test_response_rows :
    (run1 (.nmpReadRsp 0x7F 0x1234 0x99) State.reset).results =
      [[0x00, 0x01, 0x7F, 0x12, 0x34, 0x00, 0x00, 0x99, 0x01, 0x00, 0x00]] ∧
    (run1 (.nmpWriteRsp 0x00 0x0000 0x05) State.reset).results =
      [[0x00, 0x03, 0x00, 0x00, 0x00, 0x00, 0x01, 0x05, 0x01, 0x00, 0x00]] := by decide +kernel

/-! ## Reserved codes, reset, host sequences -/

/-- V5.1 to V5.5. -/
theorem test_illegal :
    (step1 (said [.command [0x00]])).results = [[0x07]] ∧ (step1 (said [.command [0x06]])).results = [[0x07]] ∧
    (step1 (said [.command [0xFF, 0x01, 0x02]])).results = [[0x07]] ∧
    (step1 (said [.command []])).results = [[0x07]] ∧
    (step1 (said [.command [0x03, 0x00]])).results = [[0x07]] := by decide +kernel
/-- V5.6. -/
theorem test_reset_during_send :
    (step1 { tx 1 1 [] with agenda := [.reset], sent := [0x06], seq := 9 }).ctrl = .idle ∧
    (step1 { tx 1 1 [] with agenda := [.reset], sent := [0x06], seq := 9 }).seq = 0x00 ∧
    (step1 { tx 1 1 [] with agenda := [.reset], sent := [0x06], seq := 9 }).sent = [0x06] ∧
    (step1 { tx 1 1 [] with agenda := [.reset], sent := [0x06], seq := 9 }).results = [] := by decide +kernel
/-- R68: after a failed send none is returned. -/
theorem test_sendreq :
    (run1 (.sendreq [0, 0, 0, 0, 0, 0, 0, 1] []) State.reset).ctrl = .busy .frsend ∧
    (step1 { State.reset with host := .sending false, results := [[0x06]] }).returns = [.sendreq none] := by
  decide +kernel
/-- P1, its first and its last step. -/
theorem test_ping :
    (run1 .ping State.reset).results = [[0x00, 0x00, 0x00, 0x00, 0x00, 0x00, 0x00, 0x00, 0x01]] ∧
    (step1 { State.reset with
      host := .parsing, results := [0x00 :: rspPayload ++ [0x00, 0x00]] }).returns = [.ping true] := by
  decide +kernel

/-! ## Witnesses: concrete states and operands that meet a statement's hypotheses together -/

/-- `step s = .next t`, the one hypothesis of ResultsHaveStatusCodes, ParametersAreStatic, OneUartAccess and
TimeNeverDecreases. -/
theorem witness_next_state : ∃ t, step State.reset = .next t := ⟨_, rfl⟩

theorem witness_DecodeOfEncode :
    (Instr.crc16 true [0x01]).wf = true ∧ (Instr.crc16 true [0x01]).space = some .command ∧
    (Instr.segCont [0x41]).wf = true ∧ (Instr.segCont [0x41]).space = some .wire ∧
    (Instr.frame [0x01] 2).wf = true ∧ (Instr.frame [0x01] 2).space = some .frame ∧
    (Instr.nmpRead 1 2).wf = true ∧ (Instr.nmpRead 1 2).space = some .header := by decide +kernel

theorem witness_EncodeOfDecode :
    decodeIn .command [0x03] = .ok .frrecv ∧ decodeIn .wire [0x04, 0x14, 0x0A] = .ok (.segCont []) ∧
    decodeIn .frame [0x00, 0x02, 0x12, 0x34] = .ok (.frame [] 0x1234) ∧
    decodeIn .header [0x02, 0x00, 0x00, 0x00, 0x00, 0x01, 0x00, 0x01] = .ok (.nmpWrite 0 0) := by
  decide +kernel

theorem witness_StepRunsTheDecoded :
    (let s := said [.command [0x03]]
     s.ctrl = .idle ∧ s.host = .free ∧ s.agenda = .command [0x03] :: [] ∧ decode [0x03] = .ok .frrecv) ∧
    (let s := said [.perform .ping]
     s.ctrl = .idle ∧ s.host = .free ∧ s.agenda = .perform .ping :: [] ∧ Instr.ping.wf = true) ∧
    (let s := rx [0x0D, 0x06, 0x09, 0x41] [(9999, 0x0A)]
     s.ctrl = .busy .frrecv ∧ s.agenda = [] ∧ s.source = (9999, 0x0A) :: [] ∧ s.now < s.deadline ∧
     9999 < s.deadline ∧ s.lovf = false ∧ decodeWire (lineBody s.line ++ [0x0A]) = .ok (.segStart [0x41])) := by
  decide +kernel

theorem witness_WhoMoves :
    (said []).agenda = [] ∧ (said [.proceed]).agenda = .proceed :: [] ∧
    (let s := { tx 0 0 [] with agenda := [.command [0x03]] }
     s.agenda = .command [0x03] :: [] ∧ (s.ctrl ≠ .idle ∨ s.host ≠ .free)) ∧
    (let s := { State.reset with agenda := [.perform .ping], host := .building }
     s.agenda = .perform .ping :: [] ∧ (s.ctrl ≠ .idle ∨ s.host ≠ .free)) ∧
    (said [.tick 5]).agenda = .tick 5 :: [] ∧
    (State.reset.agenda = [] ∧ State.reset.ctrl = .idle ∧ State.reset.host = .free) := by decide +kernel

theorem witness_HeldDescriptorStays :
    let s := { rx [] [] with agenda := [.command [0x03]] }
    s.ctrl ≠ .idle ∧ s.agenda = .command [0x03] :: [] :=
  ⟨by decide, rfl⟩

theorem witness_IllegalDescriptorEnds :
    (said [.command []]).ctrl = .idle ∧ (said [.command []]).host = .free ∧
    Malformed [] ∧ Malformed [0x00] ∧ Malformed [0x06] ∧ Malformed [0xFF] ∧
    Malformed [0x01, 0x02, 0x00, 0x00] ∧ Malformed [0x03, 0x00] ∧ ¬ Malformed [0x03] := by decide +kernel

/-- For ResetInput and PowerOnIsReset. -/
theorem witness_Reset : (said [.reset]).agenda = .reset :: [] ∧ ∃ t, step (said [.reset]) = .next t :=
  ⟨rfl, _, rfl⟩

theorem witness_InvAtReset : Params.nominal.wf := by decide

/-- The invariant in a state in which `FRSEND` runs, and a step from it. -/
theorem witness_StepKeepsInv : (tx 0 2 [.accept]).Inv ∧ ∃ t, step (tx 0 2 [.accept]) = .next t := by
  refine ⟨⟨by decide, by decide, by decide, by decide, ?_, by decide +kernel, by decide⟩, _, rfl⟩
  intro l hl
  simp [tx] at hl
  rcases hl with rfl | rfl <;> decide

/-- The invariant in a state in which a frame is in progress. -/
theorem witness_StepKeepsInv_rx : State.Inv { rx [] [] with rxph := .accum, exp := 3, acc := [0x07, 0x08] } :=
  ⟨by decide, by decide, by decide, by decide, by decide, by decide +kernel, by decide⟩

theorem witness_CrcLaws :
    1 ≤ [0x01, (0x02 : Byte)].length ∧ [(0x01 : Byte)].length = [(0x02 : Byte)].length := by decide

/-- A single wrong bit, and a burst of exactly 16 bits, in the two-byte trailer of an empty payload. -/
theorem witness_CrcDetectsBursts :
    crc16 [0x00, 0x00] 2 true = 0x0000 ∧
    bitsOf [0x00, 0x01] = List.replicate 15 false ++ [true] ++ List.replicate 0 false ∧
    (let burst := [true] ++ List.replicate 14 false ++ [true]
     bitsOf [0x80, 0x01] = List.replicate 0 false ++ burst ++ List.replicate 0 false ∧
     burst.length ≤ 16 ∧ true ∈ burst) := by decide +kernel

theorem witness_OnlyTheBuilderMovesSeq :
    ∃ t, step (said [.command [0x04, 0x00, 0x00, 0x00, 0x01, 0x00, 0x00]]) = .next t ∧ t.seq = 0x01 :=
  ⟨_, rfl, rfl⟩

theorem witness_SequenceNumbers :
    let ops : List (Byte × U16 × Byte × U16) := [(0, 0, 1, 0), (2, 1, 1, 14)]
    let s := said [.command [0x04, 0x00, 0x00, 0x00, 0x01, 0x00, 0x00],
      .command [0x04, 0x02, 0x00, 0x01, 0x01, 0x00, 0x0E]]
    s.ctrl = .idle ∧ s.host = .free ∧
    s.agenda = ops.map (fun o => .command (encode (.hdrbld o.1 o.2.1 o.2.2.1 o.2.2.2))) := by decide +kernel

/-- 256 commands, after which `SEQ` is back, and 257, of which the last carries the first's value. -/
theorem witness_SequenceNumbers_wrap : ∀ n ∈ [256, 257],
    let ops : List (Byte × U16 × Byte × U16) := List.replicate n (0, 0, 1, 0)
    let s := said (ops.map (fun o => .command (encode (.hdrbld o.1 o.2.1 o.2.2.1 o.2.2.2))))
    s.ctrl = .idle ∧ s.host = .free ∧
    s.agenda = ops.map (fun o => .command (encode (.hdrbld o.1 o.2.1 o.2.2.1 o.2.2.2))) ∧ ops.length = n :=
  fun _ _ => ⟨rfl, rfl, rfl, List.length_replicate⟩

theorem witness_HdrprsShort :
    ([] : List Byte).length < 8 ∧ [0x01, 0x00, 0x00, 0x00, 0x00, 0x00, (0x00 : Byte)].length < 8 := by decide

theorem witness_Base64Text :
    [0x01, 0x02, (0x03 : Byte)].length % 3 = 0 ∧ 3 * 0 + 3 * 1 ≤ [0x01, 0x02, (0x03 : Byte)].length ∧
    (b64enc [0x00])[2]? = some 0x3D := by decide +kernel

theorem witness_Base64IsStrict :
    b64dec [0x41, 0x41, 0x3D, 0x3D] = some [0x00] ∧ b64dec [] = some [] ∧
    b64Val 0x41 = some 0 ∧ b64Val 0x2F = some 63 := by decide +kernel

theorem witness_FrsendTooLong : State.reset.params.txMaxPayload < (List.replicate 4097 (0x00 : Byte)).length := by
  decide +kernel

theorem witness_FrsendSetsLines : State.reset.params.wf ∧
    (List.replicate 4096 (0x00 : Byte)).length ≤ State.reset.params.txMaxPayload := by decide +kernel

theorem witness_FrameSizing : ∃ p : List Byte, p.length = 65533 ∧ p.length ≤ 65533 :=
  ⟨_, List.length_replicate (a := 0x00), Nat.le_of_eq List.length_replicate⟩

/-- Each answer of the sink, mid-line, at the end of a line and at the end of the last; and no plan left. -/
theorem witness_TxWriteByAnswer :
    (∀ a : SinkAnswer, let s := tx 0 0 [a]
      s.ctrl = .busy .frsend ∧ s.txsegs[s.txi]? = some [0x06, 0x09, 0x0A] ∧
      [0x06, 0x09, (0x0A : Byte)][s.txj]? = some 0x06 ∧ s.sinkPlan = a :: [] ∧ s.txj + 1 < 3) ∧
    (let s := tx 0 2 [.accept]
     s.txj + 1 = 3 ∧ s.txi + 1 < s.txsegs.length) ∧
    (let s := tx 1 2 [.accept]
     s.txsegs[s.txi]? = some [0x04, 0x14, 0x0A] ∧ s.txj + 1 = 3 ∧ s.txi + 1 = s.txsegs.length) ∧
    (tx 1 0 []).sinkPlan = [] := by
  refine ⟨fun a => ?_, by decide, by decide, by decide⟩
  cases a <;> decide

/-- A continuation line's first byte, a line's last byte, and a byte within a line. -/
theorem witness_ContinuationDelay :
    (0 < (tx 1 0 [.accept]).txi ∧ (tx 1 0 [.accept]).txj = 0 ∧
      ∃ t, engineStep (tx 1 0 [.accept]) = .next t ∧ t.sent ≠ (tx 1 0 [.accept]).sent) ∧
    (∃ t, engineStep (tx 0 2 [.accept]) = .next t ∧ t.txi ≠ (tx 0 2 [.accept]).txi) ∧
    ((tx 0 1 [.accept]).txi = 0 ∧ ∃ t, engineStep (tx 0 1 [.accept]) = .next t ∧ t.txi = 0) :=
  ⟨⟨by decide, by decide, _, rfl, by decide +kernel⟩, ⟨_, rfl, by decide +kernel⟩, ⟨by decide, _, rfl, rfl⟩⟩

theorem witness_FrsendWritesTheFrame :
    let s := { said [.command [0x02, 0x00, 0x00]] with sinkPlan := List.replicate 11 .accept }
    s.params.wf ∧ s.ctrl = .idle ∧ s.host = .free ∧ ([] : List Byte).length ≤ s.params.txMaxPayload ∧
    s.agenda = [.command (encode (.frsend []))] ∧
    s.sinkPlan = List.replicate (frameLines (frameBytes [])).flatten.length .accept ++ [] := by decide +kernel

/-- A write error at the first byte and at the last. -/
theorem witness_FrsendStopsAtIoError :
    (said [.command [0x02, 0x00, 0x00]]).agenda = [.command (encode (.frsend []))] ∧
    0 < (frameLines (frameBytes [])).flatten.length ∧ 10 < (frameLines (frameBytes [])).flatten.length ∧
    [.ioerr] = List.replicate 0 SinkAnswer.accept ++ .ioerr :: [] := by decide +kernel

theorem witness_HeldSinkHangsFrsend :
    let s := { tx 1 0 [.hold, .hold, .accept] with agenda := [.proceed, .proceed, .reset] }
    s.ctrl = .busy .frsend ∧ s.txsegs[s.txi]? = some [0x04, 0x14, 0x0A] ∧ s.txj < 3 ∧
    s.sinkPlan = List.replicate 2 .hold ++ [.accept] ∧
    s.agenda = List.replicate 2 .proceed ++ .reset :: [] := by decide +kernel

theorem witness_EnginesKeepApart :
    ((tx 0 0 [.accept]).ctrl = .busy .frsend ∧ ∃ t, engineStep (tx 0 0 [.accept]) = .next t) ∧
    ((rx [] []).ctrl = .busy .frrecv ∧ ∃ t, engineStep (rx [] []) = .next t) :=
  ⟨⟨rfl, _, rfl⟩, ⟨rfl, _, rfl⟩⟩

/-- A byte with room for one more, a byte with none, and `LF`, each at the last tick before the deadline. -/
theorem witness_LineAssembly :
    (let s := rx (List.replicate 126 0x41) [(9999, 0x0D)]
     s.ctrl = .busy .frrecv ∧ s.source = (9999, 0x0D) :: [] ∧ s.now < s.deadline ∧ 9999 < s.deadline ∧
     (0x0D : Byte) ≠ 0x0A ∧ s.line.length < s.params.lineCap) ∧
    (let s := rx (List.replicate 127 0x41) [(9999, 0x0D)]
     s.params.lineCap ≤ s.line.length) ∧
    ∃ t, engineStep (rx [] [(9999, 0x0A)]) = .next t :=
  ⟨by decide +kernel, by decide +kernel, _, rfl⟩

/-- Every kind of noise, in a state that reads an `LF`. -/
theorem witness_NoiseIsDiscarded :
    ((rx [] [(0, 0x0A)]).ctrl = .busy .frrecv ∧ (rx [] [(0, 0x0A)]).source = (0, 0x0A) :: [] ∧
      (rx [] [(0, 0x0A)]).now < (rx [] [(0, 0x0A)]).deadline ∧ 0 < (rx [] [(0, 0x0A)]).deadline) ∧
    { rx [] [(0, 0x0A)] with lovf := true }.lovf = true ∧
    ((rx [0x0D, 0x04, 0x14] []).rxph = .hunt ∧ (lineBody (rx [0x0D, 0x04, 0x14] []).line).take 2 = [0x04, 0x14]) ∧
    NoiseLine Params.nominal [0x0D] ∧ NoiseLine Params.nominal [0x04, 0x09] ∧
    NoiseLine Params.nominal [0x04, 0x14, 0x41] ∧ NoiseLine Params.nominal [0x0D, 0x06, 0x09] ∧
    NoiseLine Params.nominal [0x06, 0x09, 0x41, 0x41, 0x3D, 0x3D] ∧
    NoiseLine Params.nominal [0x06, 0x09, 0x41, 0x41, 0x45, 0x41] ∧
    NoiseLine Params.nominal [0x06, 0x09, 0x45, 0x41, 0x4D, 0x41] := by
  refine ⟨by decide +kernel, rfl, by decide, .inl (by decide), .inr (.inl (by decide)), .inr (.inr (.inl (by decide +kernel))),
    .inr (.inr (.inr (.inl (by decide +kernel)))), ?_, ?_, ?_⟩
  · exact .inr (.inr (.inr (.inr ⟨by decide, [0x00], by decide +kernel, by decide⟩)))
  · exact .inr (.inr (.inr (.inr ⟨by decide, [0x00, 0x01, 0x00], by decide +kernel, by decide +kernel⟩)))
  · exact .inr (.inr (.inr (.inr ⟨by decide, [0x10, 0x03, 0x00], by decide +kernel, by decide +kernel⟩)))

theorem witness_UnusableSegments :
    (rx [] []).ctrl = .busy .frrecv ∧ b64dec [0x41] = none ∧ b64dec [] = some [] ∧ (rx [] []).rxph = .hunt := by
  decide +kernel

/-- An overrun by one byte and a frame short of one byte, at the least and the greatest expected total. -/
theorem witness_StartSegmentTaken :
    (rx [] []).ctrl = .busy .frrecv ∧
    b64dec [0x41, 0x41, 0x49, 0x41, 0x41, 0x41, 0x41, 0x3D] = some (be16 2 ++ [0x00, 0x00, 0x00]) ∧
    (2 : U16).toNat < [0x00, 0x00, (0x00 : Byte)].length ∧
    b64dec [0x45, 0x41, 0x49, 0x41] = some (be16 4098 ++ [0x00]) ∧
    2 ≤ (4098 : U16).toNat ∧ (4098 : U16).toNat ≤ (rx [] []).params.rxCap ∧
    [(0x00 : Byte)].length < (4098 : U16).toNat := by decide +kernel

theorem witness_ContinuationSegmentTaken :
    b64dec [0x41, 0x41, 0x41, 0x3D] = some [0x00, 0x00] ∧ ([0x00, 0x00] : List Byte) ≠ [] ∧
    (let s := { rx [] [] with rxph := .accum, exp := 3, acc := [0x07, 0x07] }
     s.ctrl = .busy .frrecv ∧ s.rxph = .accum ∧ s.exp.toNat < s.acc.length + 2) ∧
    (let s := { rx [] [] with rxph := .accum, exp := 5, acc := [0x07, 0x07] }
     s.ctrl = .busy .frrecv ∧ s.rxph = .accum ∧ s.acc.length + 2 < s.exp.toNat) := by decide +kernel

/-- A start that completes with residual 0, a start that completes with another (under either policy), and a
continuation that completes. -/
theorem witness_CompletedFrame :
    (b64dec rspText = some (be16 10 ++ (rspPayload ++ [0x57, 0xF2])) ∧
      (rspPayload ++ [0x57, 0xF2]).length = (10 : U16).toNat ∧ 2 ≤ (10 : U16).toNat ∧
      (10 : U16).toNat ≤ (rx [] []).params.rxCap ∧ crc16 (rspPayload ++ [0x57, 0xF2]) 10 true = 0x0000) ∧
    (b64dec badText = some (be16 10 ++ (rspPayload ++ [0x57, 0xF3])) ∧
      crc16 (rspPayload ++ [0x57, 0xF3]) 10 true ≠ 0x0000 ∧ (rx [] []).params.crcPolicy = .accept ∧
      { Params.nominal with crcPolicy := .reject }.crcPolicy = .reject) ∧
    (let s := { rx [] [] with rxph := .accum, exp := 2, acc := [0x00] }
     b64dec [0x41, 0x41, 0x3D, 0x3D] = some [0x00] ∧ ([0x00] : List Byte) ≠ [] ∧ s.rxph = .accum ∧ s.exp = 2 ∧
     ([0x00, 0x00] : List Byte) = s.acc ++ [0x00] ∧ crc16 [0x00, 0x00] 2 true = 0x0000) := by decide +kernel

/-- A frame one byte too long for the buffer, one that just fits, and each residual. -/
theorem witness_FrameRowIsChecked :
    (rx [] []).params.rxCap < (List.replicate 4097 (0x00 : Byte)).length + 2 ∧
    (List.replicate 4096 (0x00 : Byte)).length + 2 ≤ (rx [] []).params.rxCap ∧
    crc16 ([0xFF] ++ be16 0x1EF0) 3 true = 0x0000 ∧ crc16 ([0xFF] ++ be16 0x1EF1) 3 true ≠ 0x0000 := by
  decide +kernel

theorem witness_WireRowsWait :
    State.reset.ctrl ≠ .busy .frrecv ∧ (tx 0 0 []).ctrl ≠ .busy .frrecv := by decide

/-- The deadline has come, the source is empty, and the next byte comes exactly at the deadline. -/
theorem witness_FrrecvTimesOut :
    (let s := { rx [] [(0, 0x0A)] with now := 10000 }
     s.ctrl = .busy .frrecv ∧ s.deadline ≤ s.now) ∧
    (rx [] []).source = [] ∧
    (let s := rx [] [(10000, 0x0A)]
     s.source = (10000, 0x0A) :: [] ∧ s.deadline ≤ 10000) := by decide +kernel

/-- Each of the three ways a step of `FRRECV` can go; for NoReadAtDeadline as well. -/
theorem witness_FrrecvEndings :
    (rx [] []).ctrl = .busy .frrecv ∧
    (∃ t, engineStep (rx [] [(0, 0x41)]) = .next t ∧ t.ctrl = .busy .frrecv) ∧
    (∃ t, engineStep (rx [] []) = .next t ∧ t.ctrl = .idle) ∧
    (∃ t, engineStep (rx (0x06 :: 0x09 :: rspText) [(0, 0x0A)]) = .next t ∧ t.ctrl = .idle ∧ t.now < 10000) :=
  ⟨rfl, ⟨_, rfl, rfl⟩, ⟨_, rfl, rfl⟩, ⟨_, rfl, by decide +kernel, by decide +kernel⟩⟩

theorem witness_RejectNeverWarns :
    let s := { rx (0x06 :: 0x09 :: badText) [(0, 0x0A)] with
      params := { Params.nominal with crcPolicy := .reject } }
    s.params.crcPolicy = .reject ∧ ∃ t, step s = .next t := ⟨rfl, _, rfl⟩

theorem witness_FrrecvAlwaysEnds : (rx [0x06] [(0, 0x41)]).ctrl = .busy .frrecv ∧
    (rx [0x06] [(0, 0x41)]).agenda = [] := by decide +kernel

/-- The empty payload's line, with a blank line before it and a byte after it. -/
theorem witness_FramerRoundTrip :
    let bytes : List Byte := [0x0A, 0x06, 0x09, 0x41, 0x41, 0x49, 0x41, 0x41, 0x41, 0x3D, 0x3D, 0x0A]
    let wire := bytes.map fun b => (9, b)
    let s := { said [.command [0x03]] with source := wire ++ [(10, 0x41)] }
    s.params.wf ∧ s.ctrl = .idle ∧ s.host = .free ∧ s.agenda = [.command [0x03]] ∧
    ([] : List Byte).length ≤ s.params.txMaxPayload ∧ ([] : List Byte).length + 2 ≤ s.params.rxCap ∧
    0 < s.params.rxTimeout ∧ ([[[]]] : List (List (List Byte))).length = (frameLines (frameBytes [])).length ∧
    (0x0A ∉ ([] : List Byte) ∧ (NoiseLine s.params [] ∨ s.params.lineCap < ([] : List Byte).length)) ∧
    s.source = wire ++ [(10, 0x41)] ∧
    wire.map Prod.snd = interleaved [[[]]] (frameLines (frameBytes [])) ∧
    (∀ x ∈ wire, x.1 < s.now + s.params.rxTimeout) := by
  refine ⟨by decide, rfl, rfl, rfl, by decide, by decide, by decide, by decide +kernel,
    ⟨by decide, .inl (.inl (by decide))⟩, rfl, by decide +kernel, by decide +kernel⟩

/-- The host in each phase of `SENDREQ`, with each kind of result. -/
theorem witness_SendreqSequence :
    (([0, 0, 0, 0, 0, 0, 0, 1] : List Byte).length + ([] : List Byte).length ≤ State.reset.params.txMaxPayload) ∧
    (let s := { State.reset with host := .sending false, results := [[0x06]] }
     s.ctrl = .idle ∧ s.results = [] ++ [0x06 :: []] ∧ s.host = .sending false ∧ (0x06 : Byte) ≠ 0x00) ∧
    (let s := { State.reset with host := .sending false, results := [[0x00]] }
     s.results = [] ++ [0x00 :: []]) ∧
    (let s := { State.reset with host := .receiving false, results := [[0x00], [0x01]] }
     s.results = [[0x00]] ++ [0x01 :: []] ∧ s.host = .receiving false) ∧
    (let s := { State.reset with host := .receiving false, results := [[0x00, 0x00, 0x00, 0x00, 0x00]] }
     s.results = [] ++ [0x00 :: [0x00, 0x00, 0x00, 0x00]] ∧ (0x00 : Byte) ≠ 0x01) := by decide +kernel

/-- The host in each phase of `PING`. -/
theorem witness_PingSequence :
    ∀ h : HostPhase, let s := { State.reset with host := h, results := [[0x01]] }
      s.ctrl = .idle ∧ s.results = [] ++ [0x01 :: []] ∧ s.host = h := fun _ => ⟨rfl, rfl, rfl⟩

/-- P1: the ping request's line accepted, and Rsp on the line. -/
theorem witness_PingSucceeds :
    let wire := ([0x06, 0x09] ++ rspText ++ [0x0A]).map fun b => (9, b)
    let s := { said [.perform .ping] with sinkPlan := List.replicate 19 .accept, source := wire ++ [] }
    s.params.wf ∧ s.ctrl = .idle ∧ s.host = .free ∧ s.agenda = [.perform .ping] ∧ 0 < s.params.rxTimeout ∧
    ([] : List Byte).length + 10 ≤ s.params.rxCap ∧
    (frameLines (frameBytes [0x00, 0x00, 0x00, 0x00, 0x00, 0x00, s.seq, 0x01])).flatten.length = 19 ∧
    wire.map Prod.snd = (frameLines (frameBytes
      ([0x01, 0x00, 0x00, 0x00, 0x00, 0x00, 0x00, 0x01] ++ []))).flatten ∧
    (∀ x ∈ wire, x.1 < s.now + s.params.rxTimeout) := by decide +kernel

end Sys2Proof.Tests
end

section
/-! PROOFS. The invariant of R29 and R30 is kept by every step. Inv asks something of the buffers whatever
`CTRL` is (`Capacities`), and one thing more of each engine while it runs; so each operation is shown to
leave the buffers within bounds, and the running engine where it may be. -/

namespace Sys2Proof.Machine

/-! ## The lines of a frame (R122, R127, R128) -/

/-- The first `n` pieces of `m` characters are the first `m * n` characters. -/
theorem flatten_pieces (e : List Byte) (m n : Nat) :
    ((List.range n).map fun k => (e.drop (m * k)).take m).flatten = e.take (m * n) := by
  induction n with
  | zero => simp
  | succ n ih => simp [List.range_succ, ih, Nat.mul_succ, List.take_add]

theorem split124_flatten (e : List Byte) : (split124 e).flatten = e := by
  rw [split124, flatten_pieces]
  refine List.take_of_length_le ?_
  simp only [segMaxChars, ceilDiv]
  omega

theorem length_le_of_mem_split124 (e : List Byte) : ∀ t ∈ split124 e, t.length ≤ 124 := by
  intro t ht
  obtain ⟨k, -, rfl⟩ := List.mem_map.mp ht
  exact List.length_take_le ..

@[simp] theorem startLine_length (t : List Byte) : (startLine t).length = t.length + 3 := by
  simp [startLine, startMarker]

@[simp] theorem contLine_length (t : List Byte) : (contLine t).length = t.length + 3 := by
  simp [contLine, contMarker]

theorem length_of_mem_seglines (ts : List (List Byte)) (l : List Byte) (h : l ∈ seglines ts) :
    ∃ t ∈ ts, l.length = t.length + 3 := by
  cases ts with
  | nil => cases h
  | cons t0 ts =>
    rcases List.mem_cons.mp h with rfl | h
    · exact ⟨t0, by simp, startLine_length t0⟩
    · obtain ⟨t, ht, rfl⟩ := List.mem_map.mp h
      exact ⟨t, by simp [ht], contLine_length t⟩

theorem contLines_flatten_length (ts : List (List Byte)) :
    (ts.map contLine).flatten.length = ts.flatten.length + 3 * ts.length := by
  induction ts with
  | nil => rfl
  | cons t ts ih =>
    simp only [List.map_cons, List.flatten_cons, List.length_append, List.length_cons, ih, contLine_length]
    omega

theorem seglines_flatten_length (ts : List (List Byte)) :
    (seglines ts).flatten.length = ts.flatten.length + 3 * ts.length := by
  cases ts with
  | nil => rfl
  | cons t ts =>
    simp only [seglines, List.flatten_cons, List.length_append, List.length_cons, contLines_flatten_length,
      startLine_length]
    omega

/-- A line is marker, at most 124 characters and `LF` (R74, R127). -/
theorem frameLines_line_length (f : List Byte) : ∀ l ∈ frameLines f, 0 < l.length ∧ l.length ≤ 127 := by
  intro l hl
  obtain ⟨t, ht, e⟩ := length_of_mem_seglines _ l hl
  have := length_le_of_mem_split124 _ t ht
  omega

/-- The lines hold the text and three bytes each besides (R74). -/
theorem frameLines_flatten_length (f : List Byte) :
    (frameLines f).flatten.length = 4 * ((f.length + 2) / 3) + 3 * (frameLines f).length := by
  simp only [frameLines, seglines_flatten_length, split124_flatten, b64enc_length, seglines_length]

theorem frameLines_length_pos (f : List Byte) (h : 0 < f.length) : 0 < (frameLines f).length := by
  simp only [frameLines, seglines_length, split124_length, b64enc_length, ceilDiv, segMaxChars]
  omega

/-! ## The invariant, by what `CTRL` is -/

/-- R5 and the capacities of R30: what the invariant asks of the buffers whatever `CTRL` is. It is stated of
the four fields, so that an update of any other field leaves it as it is. -/
structure Capacities (p : Params) (line acc : List Byte) (segs : List (List Byte)) : Prop where
  params_wf : p.wf
  line_cap  : line.length ≤ p.lineCap
  acc_cap   : acc.length ≤ p.rxCap
  tx_lines  : ∀ l ∈ segs, 0 < l.length ∧ l.length ≤ 127
  tx_cap    : segs.flatten.length ≤ 4 * ceilDiv (p.txMaxPayload + 4) 3 + 3 * segs.length

section
variable {s t : State}

theorem State.Inv.capacities (h : s.Inv) : Capacities s.params s.line s.acc s.txsegs :=
  ⟨h.params_wf, h.line_cap, h.acc_cap, h.tx_lines, h.tx_cap⟩

theorem inv_of_idle (hc : s.ctrl = .idle) (hb : Capacities s.params s.line s.acc s.txsegs) : s.Inv :=
  { hb with rx_frame := by simp [hc], tx_byte := by simp [hc] }

theorem inv_of_frrecv (hc : s.ctrl = .busy .frrecv) (hb : Capacities s.params s.line s.acc s.txsegs)
    (hf : s.rxph = .accum → 2 ≤ s.exp.toNat ∧ s.exp.toNat ≤ s.params.rxCap ∧ s.acc.length < s.exp.toNat) :
    s.Inv :=
  { hb with rx_frame := fun _ => hf, tx_byte := by simp [hc] }

theorem inv_of_frsend (hc : s.ctrl = .busy .frsend) (hb : Capacities s.params s.line s.acc s.txsegs)
    (ht : s.txi < s.txsegs.length ∧ s.txj < (s.txsegs.getD s.txi []).length) : s.Inv :=
  { hb with rx_frame := by simp [hc], tx_byte := fun _ => ht }

/-- The invariant does not speak of `SEQ`, `TXWAKE`, `LOVF`, `DEADLINE`, the environment or the host. -/
theorem State.Inv.frame (h : s.Inv) (e : t = { s with
      seq := t.seq, txwake := t.txwake, lovf := t.lovf, deadline := t.deadline, now := t.now
      source := t.source, sinkPlan := t.sinkPlan, draws := t.draws, sent := t.sent, agenda := t.agenda
      host := t.host, results := t.results, returns := t.returns }) : t.Inv := by
  rw [e]
  exact { h.capacities with rx_frame := h.rx_frame, tx_byte := h.tx_byte }

/-! ## The shared operations -/

theorem finish_inv (c : Byte) (d : List Byte) (hb : Capacities s.params s.line s.acc s.txsegs) :
    (finish c d s).Inv := inv_of_idle rfl hb

theorem resetEvent_inv (h : s.Inv) : (resetEvent s).Inv :=
  inv_of_idle rfl ⟨h.params_wf, Nat.zero_le _, Nat.zero_le _, by simp, Nat.zero_le _⟩

theorem arrive_inv (b : List Byte) (h : s.Inv) : (arrive b s).Inv := h.frame rfl

theorem runBuilder_inv (op : Byte) (group : U16) (id : Byte) (blen : U16) (h : s.Inv) :
    (runBuilder op group id blen s).Inv := finish_inv _ _ h.capacities

theorem runParser_inv (eop : Byte) (egroup : U16) (eid : Byte) (r : List Byte) (h : s.Inv) :
    (runParser eop egroup eid r s).Inv := by
  unfold runParser
  split <;> exact finish_inv _ _ h.capacities

theorem startFrrecv_inv (h : s.Inv) : (startFrrecv s).Inv :=
  inv_of_frrecv rfl { h.capacities with line_cap := Nat.zero_le _, acc_cap := Nat.zero_le _ } (by simp)

/-- The lines of a frame that R121 admits are within the capacity of R30, and there is a first byte. -/
theorem startFrsend_inv (p : List Byte) (h : s.Inv) : (startFrsend p s).Inv := by
  rcases startFrsend_cases p s with ⟨-, e⟩ | ⟨hp, e⟩ <;> rw [e]
  · exact finish_inv _ _ h.capacities
  · have hlines := frameLines_line_length (frameBytes p)
    have hpos : 0 < (frameLines (frameBytes p)).length := frameLines_length_pos _ (by simp)
    refine inv_of_frsend rfl { h.capacities with tx_lines := hlines, tx_cap := ?_ } ⟨hpos, ?_⟩
    · simp only [frameLines_flatten_length, frameBytes_length, ceilDiv]
      omega
    · simp only [List.getD_eq_getElem _ _ hpos]
      exact (hlines _ (List.getElem_mem hpos)).1

/-! ## A frame in progress (R159 to R166) -/

theorem abandonFrame_inv (hc : s.ctrl = .busy .frrecv) (hb : Capacities s.params s.line s.acc s.txsegs) :
    (abandonFrame s).Inv :=
  inv_of_frrecv hc { hb with acc_cap := Nat.zero_le _ } (by simp)

theorem completeFrame_inv (hc : s.ctrl = .busy .frrecv) (hb : Capacities s.params s.line s.acc s.txsegs) :
    (completeFrame s).Inv := by
  rcases completeFrame_cases s with ⟨-, -, e⟩ | ⟨-, e⟩ <;> rw [e]
  · exact abandonFrame_inv hc hb
  · exact finish_inv _ _ hb

/-- The bytes held never pass `EXP`, and `EXP` is at most `RX_CAP` (R29). -/
theorem appendData_inv (x : List Byte) (h : s.Inv) (hc : s.ctrl = .busy .frrecv) (hr : s.rxph = .accum) :
    (appendData x s).Inv := by
  obtain ⟨hlo, hhi, -⟩ := h.rx_frame hc hr
  rcases appendData_cases x s with ⟨-, e⟩ | ⟨hl, e⟩ | ⟨hl, e⟩ <;> rw [e]
  · exact abandonFrame_inv hc h.capacities
  · refine completeFrame_inv hc { h.capacities with acc_cap := ?_ }
    simp only [List.length_append]
    omega
  · refine inv_of_frrecv hc { h.capacities with acc_cap := ?_ } fun _ => ⟨hlo, hhi, ?_⟩ <;>
      simp only [List.length_append] <;> omega

theorem takeStart_inv (d : List Byte) (h : s.Inv) (hc : s.ctrl = .busy .frrecv) : (takeStart d s).Inv := by
  rcases takeStart_cases d s with e | ⟨-, hlo, hhi, e⟩ <;> rw [e]
  · exact h
  · refine appendData_inv _ (inv_of_frrecv hc { h.capacities with acc_cap := Nat.zero_le _ } fun _ => ?_) hc rfl
    exact ⟨hlo, hhi, Nat.lt_of_lt_of_le Nat.two_pos hlo⟩

theorem takeCont_inv (d : List Byte) (h : s.Inv) (hc : s.ctrl = .busy .frrecv) : (takeCont d s).Inv := by
  rcases takeCont_cases d s with ⟨-, e⟩ | ⟨hr, e⟩ <;> rw [e]
  · exact h
  · exact appendData_inv d h hc hr

theorem takeSegment_inv (take : List Byte → State → State) (text : List Byte) (h : s.Inv)
    (htake : ∀ d, (take d s).Inv) : (takeSegment take text s).Inv := by
  rcases takeSegment_cases take text s with e | ⟨d, -, -, e⟩ <;> rw [e]
  · exact h
  · exact htake d

theorem addToLine_inv (b : Byte) (h : s.Inv) : (addToLine b s).Inv := by
  unfold addToLine
  split
  case isTrue hl =>
    exact { h.capacities with
      line_cap := by simpa using hl, rx_frame := h.rx_frame, tx_byte := h.tx_byte }
  case isFalse => exact h.frame rfl

/-! ## The engines and the host -/

/-- The next state, where a meaning or a step answers one, meets the invariant. -/
def NextInv (r : Result) : Prop := ∀ t, r = .next t → t.Inv

theorem nextInv_next (h : s.Inv) : NextInv (.next s) := by
  rintro _ ⟨⟩
  exact h

theorem takeLine_inv (l : List Byte) (ov : Bool) (h : s.Inv) (hc : s.ctrl = .busy .frrecv) :
    NextInv (takeLine l ov s) := by
  rcases takeLine_cases l ov s with e | ⟨u, -, e | e⟩ <;> rw [e]
  · exact nextInv_next h
  · rw [execSegStart, hc]
    exact nextInv_next (takeSegment_inv _ u h fun d => takeStart_inv d h hc)
  · rw [execSegCont, hc]
    exact nextInv_next (takeSegment_inv _ u h fun d => takeCont_inv d h hc)

theorem rxStep_inv (h : s.Inv) (hc : s.ctrl = .busy .frrecv) : NextInv (rxStep s) := by
  rcases rxStep_cases s with ⟨-, e⟩ | ⟨tick, b, rest, -, -, -, ⟨-, e⟩ | ⟨-, e⟩⟩ <;> rw [e]
  · exact nextInv_next (finish_inv _ _ h.capacities)
  · exact nextInv_next (addToLine_inv b (h.frame rfl))
  · exact takeLine_inv _ _ (inv_of_frrecv hc { h.capacities with line_cap := Nat.zero_le _ } (h.rx_frame hc)) hc

/-- A write and the wait before it leave the block's own state as it is (R44, R129). -/
theorem uartWrite_txDelay_frame {b : Byte} {a : SinkAnswer} (hw : uartWrite b (txDelay s) = (a, t)) :
    ∃ now plan draws sent, t = { s with now := now, sinkPlan := plan, draws := draws, sent := sent } := by
  obtain ⟨a, plan, draws, ha⟩ := txAnswer_effect s
  rcases uartWrite_cases b (txDelay s) with ⟨-, e⟩ | ⟨-, e⟩ <;> rw [e, ha] at hw <;> cases hw <;>
    exact ⟨_, _, _, _, rfl⟩

/-- After the last byte of a line comes the first byte of the next, which has one (R120). -/
theorem txAccepted_inv (h : s.Inv) (hc : s.ctrl = .busy .frsend) :
    (txAccepted (s.txsegs.getD s.txi []).length s).Inv := by
  obtain ⟨hi, hj⟩ := h.tx_byte hc
  rcases txAccepted_cases (s.txsegs.getD s.txi []).length s with ⟨hne, e⟩ | ⟨-, hnext, e⟩ | ⟨-, -, e⟩ <;> rw [e]
  · exact inv_of_frsend hc h.capacities ⟨hi, by simp only; omega⟩
  · refine inv_of_frsend hc h.capacities ⟨hnext, ?_⟩
    simp only [List.getD_eq_getElem _ _ hnext]
    exact (h.tx_lines _ (List.getElem_mem hnext)).1
  · exact finish_inv _ _ h.capacities

theorem txStep_inv (h : s.Inv) (hc : s.ctrl = .busy .frsend) : NextInv (txStep s) := by
  rcases txStep_cases s with ⟨-, e⟩ | ⟨-, -, -, e⟩ | ⟨l, b, hl, -, hw⟩
  · rw [e]; exact nextInv_next (finish_inv _ _ h.capacities)
  · rw [e]; exact nextInv_next h
  · have hline : s.txsegs.getD s.txi [] = l := by simp [hl]
    rcases hw with ⟨s', hu, e⟩ | ⟨s', hu, e⟩ | ⟨s', hu, e⟩ <;> rw [e] <;>
      obtain ⟨_, _, _, _, rfl⟩ := uartWrite_txDelay_frame hu
    · rw [← hline]
      exact nextInv_next (txAccepted_inv (h.frame rfl) hc)
    · exact nextInv_next (finish_inv _ _ h.capacities)
    · exact nextInv_next (h.frame rfl)

theorem hostNext_inv (r : List Byte) (h : s.Inv) : (hostNext r s).Inv := by
  have hreturn (v : HostReturn) : (hostReturn v s).Inv := h.frame rfl
  have hhost (p : HostPhase) : State.Inv { s with host := p } := h.frame rfl
  unfold hostNext
  split
  · exact h
  · exact startFrsend_inv _ (hhost _)
  · split
    · exact hreturn _
    · exact startFrrecv_inv (hhost _)
  · split
    · exact hreturn _
    · split
      · exact runParser_inv _ _ _ _ (hhost _)
      · exact hreturn _
  · exact hreturn _

theorem engineStep_inv (h : s.Inv) : NextInv (engineStep s) := by
  match hc : s.ctrl with
  | .idle => rw [engineStep_idle s hc]; exact nextInv_next (hostNext_inv _ h)
  | .busy .frsend => rw [engineStep_frsend s hc]; exact txStep_inv h hc
  | .busy .frrecv => rw [engineStep_frrecv s hc]; exact rxStep_inv h hc

/-- Every instruction's meaning while the block is idle: a descriptor is taken only then (R26). -/
theorem exec_inv (i : Instr) (h : s.Inv) (hc : s.ctrl = .idle) : NextInv (exec i s) := by
  have hfinish (c : Byte) (d : List Byte) : NextInv (.next (finish c d s)) :=
    nextInv_next (finish_inv c d h.capacities)
  have hbuild (op : Byte) (group : U16) (id : Byte) (blen : U16) :
      NextInv (.next (runBuilder op group id blen s)) := nextInv_next (runBuilder_inv op group id blen h)
  have hparse (eop : Byte) (egroup : U16) (eid : Byte) (r : List Byte) :
      NextInv (.next (runParser eop egroup eid r s)) := nextInv_next (runParser_inv eop egroup eid r h)
  have harrive (b : List Byte) : NextInv (.next (arrive b s)) := nextInv_next (arrive_inv b h)
  cases i with
  | crc16 => exact hfinish _ _
  | reserved00 | reservedHi => exact hfinish _ _
  | frsend p => exact nextInv_next (startFrsend_inv p h)
  | frrecv => exact nextInv_next (startFrrecv_inv h)
  | hdrbld | nmpRead | nmpWrite => exact hbuild _ _ _ _
  | hdrprs | nmpReadRsp | nmpWriteRsp => exact hparse _ _ _ _
  | segStart => simp only [exec, execSegStart, hc]; exact harrive _
  | segCont => simp only [exec, execSegCont, hc]; exact harrive _
  | frame => simp only [exec, execFrame, hc]; exact harrive _
  | sendreq hd body => exact nextInv_next (startFrsend_inv _ (h.frame rfl))
  | ping => exact nextInv_next (runBuilder_inv _ _ _ _ (h.frame rfl))

theorem step_inv (h : s.Inv) : NextInv (step s) := by
  have hagenda (a : List Input) : State.Inv { s with agenda := a } := h.frame rfl
  rcases step_cases s with ⟨n, rest, -, e⟩ | ⟨rest, -, e⟩ | ⟨rest, -, e⟩ | ⟨e, -⟩ |
    ⟨rest, ⟨hc, -⟩, -, e | ⟨i, e⟩⟩ <;> rw [e]
  · exact nextInv_next (h.frame rfl)
  · exact nextInv_next (resetEvent_inv (hagenda rest))
  · exact engineStep_inv (hagenda rest)
  · exact engineStep_inv h
  · exact nextInv_next (finish_inv _ _ h.capacities)
  · exact exec_inv i (hagenda rest) hc

end

/-- Settles O18, by the cases of a step: each operation it is made of keeps the invariant. -/
theorem stepKeepsInv : Obligations.StepKeepsInv :=
  fun _ t h e => step_inv h t e

end Sys2Proof.Machine
end

section
/-! PROOFS. What the host's sequences do from one command to the next (R68, R69). -/

namespace Sys2Proof.Machine

/-! ## The result the host took last (R61) -/

theorem lastResult_of_results_append {s : State} {before : List (List Byte)} {r : List Byte}
    (h : s.results = before ++ [r]) : s.lastResult = r := by
  simp [State.lastResult, h]

@[simp] theorem resStatus_cons (c : Byte) (data : List Byte) : resStatus (c :: data) = c := rfl

@[simp] theorem resHeader_cons (c : Byte) (data : List Byte) : resHeader (c :: data) = data.take 8 := rfl

@[simp] theorem resPayload_cons (c : Byte) (data : List Byte) : resPayload (c :: data) = data.drop 4 := rfl

/-! ## The host's move in each phase of a sequence -/

section
variable {s : State} {c : Byte} {data : List Byte} {ping : Bool}

theorem hostNext_building (hh : s.host = .building) :
    hostNext (c :: data) s = startFrsend (data.take 8) { s with host := .sending true } := by
  simp [hostNext, hh]

theorem hostNext_sending_failed (hh : s.host = .sending ping) (hc : c ≠ stOk) :
    hostNext (c :: data) s = hostNone ping s := by
  simp [hostNext, hh, hc]

theorem hostNext_sending_ok (hh : s.host = .sending ping) (hc : c = stOk) :
    hostNext (c :: data) s = startFrrecv { s with host := .receiving ping } := by
  simp [hostNext, hh, hc]

theorem hostNext_receiving_noData (hh : s.host = .receiving ping) (hc : c = stNoData) :
    hostNext (c :: data) s = hostNone ping s := by
  simp [hostNext, hh, hc]

theorem hostNext_receiving_sendreq (hh : s.host = .receiving false) (hc : c ≠ stNoData) :
    hostNext (c :: data) s = hostReturn (.sendreq (some (data.drop 4))) s := by
  simp [hostNext, hh, hc]

theorem hostNext_receiving_ping (hh : s.host = .receiving true) (hc : c ≠ stNoData) :
    hostNext (c :: data) s = runParser 0x01 0x0000 0x01 (data.drop 4) { s with host := .parsing } := by
  simp [hostNext, hh, hc]

theorem hostNext_parsing (r : List Byte) (hh : s.host = .parsing) :
    hostNext r s = hostReturn (.ping (resStatus r = stOk)) s := by
  simp [hostNext, hh]

end

/-- With the block idle, a step is the host's move on the result delivered last (R215). -/
theorem engineStep_eq_hostNext {s : State} {before : List (List Byte)} {r : List Byte}
    (hc : s.ctrl = .idle) (hr : s.results = before ++ [r]) : engineStep s = .next (hostNext r s) := by
  rw [engineStep_idle s hc, hostStep, lastResult_of_results_append hr]

/-- An `FRSEND` that R121 admits sets the TX state (R120, R128). -/
theorem startFrsend_of_le (p : List Byte) (s : State) (h : p.length ≤ s.params.txMaxPayload) :
    startFrsend p s = { s with
      ctrl := .busy .frsend, txsegs := frameLines (frameBytes p), txi := 0, txj := 0, txwake := 0 } := by
  rcases startFrsend_cases p s with ⟨hlong, -⟩ | ⟨-, e⟩
  · omega
  · exact e

/-- Settles O57, by the host's move in each phase. -/
theorem sendreqSequence : Obligations.SendreqSequence := by
  refine ⟨fun _ _ _ => rfl, fun h body s hlen => ?_, fun s before c data hc hr => ?_⟩
  · exact congrArg Host.Outcome.next
      (startFrsend_of_le (h ++ body) { s with host := .sending false } (by simpa using hlen))
  · rw [engineStep_eq_hostNext hc hr]
    refine ⟨fun hh hfail => ?_, fun hh hok => ?_, fun hh hnone => ?_, fun hh hsome => ?_⟩
    · rw [hostNext_sending_failed hh hfail]; rfl
    · rw [hostNext_sending_ok hh hok]; rfl
    · rw [hostNext_receiving_noData hh hnone]; rfl
    · rw [hostNext_receiving_sendreq hh hsome]; rfl

/-- Settles O58, by the host's move in each phase. -/
theorem pingSequence : Obligations.PingSequence := by
  refine ⟨fun _ => rfl, fun s before c data hc hr => ?_⟩
  rw [engineStep_eq_hostNext hc hr]
  refine ⟨fun hh => ?_, fun hh hfail => ?_, fun hh hok => ?_, fun hh hnone => ?_, fun hh hsome => ?_,
    fun hh => ?_⟩
  · rw [hostNext_building hh]; rfl
  · rw [hostNext_sending_failed hh hfail]; rfl
  · rw [hostNext_sending_ok hh hok]; rfl
  · rw [hostNext_receiving_noData hh hnone]; rfl
  · rw [hostNext_receiving_ping hh hsome]; rfl
  · rw [hostNext_parsing _ hh]; rfl

end Sys2Proof.Machine
end

section
/-! PROOFS. The base64 alphabet, and the characters of a group's 24-bit value (R73, R122). -/

namespace Sys2Proof.Machine

/-- The alphabet in order: A to Z, a to z, 0 to 9, +, / (R73). -/
theorem b64Val_eq_some_iff (c : Byte) (v : Nat) : b64Val c = some v ↔
    (v < 26 ∧ c.toNat = 0x41 + v) ∨ (26 ≤ v ∧ v < 52 ∧ c.toNat = 0x61 + (v - 26)) ∨
    (52 ≤ v ∧ v < 62 ∧ c.toNat = 0x30 + (v - 52)) ∨ (v = 62 ∧ c.toNat = 0x2B) ∨
    (v = 63 ∧ c.toNat = 0x2F) := by
  simp only [b64Val]
  split_ifs
  case neg =>
    rw [false_iff]
    omega
  all_goals
    rw [Option.some_inj]
    omega

/-- The character of a group's sextet has that sextet as its value. -/
theorem b64Val_b64Char_sextet (v k : Nat) :
    b64Val (b64Char (sextet v k)) = some (v / 2 ^ (6 * k) % 64) :=
  b64Val_b64Char _ (sextet_lt v k)

theorem b64Val_b64Char_sextet_low (v : Nat) : b64Val (b64Char (sextet v 0)) = some (v % 64) := by
  rw [b64Val_b64Char_sextet, Nat.mul_zero, Nat.pow_zero, Nat.div_one]

/-- A final group of two bytes counts as one padded with a zero byte (R73). -/
theorem groupValue_two (b0 b1 : Byte) : groupValue b0 b1 0 = b0.toNat * 2 ^ 16 + b1.toNat * 2 ^ 8 := by
  simp [groupValue]

/-- A final group of one byte counts as one padded with two zero bytes (R73). -/
theorem groupValue_one (b0 : Byte) : groupValue b0 0 0 = b0.toNat * 2 ^ 16 := by
  simp [groupValue]

theorem groupValue_lt (b0 b1 b2 : Byte) : groupValue b0 b1 b2 < 2 ^ 24 := by
  simp only [groupValue]
  omega

/-- Nothing of a 24-bit value stands above its highest sextet. -/
theorem b64Val_b64Char_sextet_top {v : Nat} (h : v < 2 ^ 24) :
    b64Val (b64Char (sextet v 3)) = some (v / 2 ^ 18) := by
  rw [b64Val_b64Char_sextet, Nat.mod_eq_of_lt]
  omega

/-- Settles O60: each character is that of its sextet, and the group's value has 24 bits. -/
theorem base64Groups : Obligations.Base64Groups := by
  refine ⟨b64Val_eq_some_iff, rfl, b64enc_length, fun b0 b1 b2 rest => ⟨?_, ?_, ?_⟩⟩
  · exact ⟨_, _, _, _, rfl, b64Val_b64Char_sextet_top (groupValue_lt b0 b1 b2),
      b64Val_b64Char_sextet _ 2, b64Val_b64Char_sextet _ 1, b64Val_b64Char_sextet_low _⟩
  · rw [← groupValue_two]
    exact ⟨_, _, _, rfl, b64Val_b64Char_sextet_top (groupValue_lt b0 b1 0),
      b64Val_b64Char_sextet _ 2, b64Val_b64Char_sextet _ 1⟩
  · rw [← groupValue_one]
    exact ⟨_, _, rfl, b64Val_b64Char_sextet_top (groupValue_lt b0 0 0), b64Val_b64Char_sextet _ 2⟩

end Sys2Proof.Machine
end

section
/-! PROOFS. The checksum generator (40_crc16.md): the bit step as arithmetic, short input, linearity, and the
residual of a payload with its trailer. -/

namespace Sys2Proof.Machine

/-! ## The bit step (R100) -/

/-- The shift with OR appends the input bit at the low end and drops bit 15. -/
theorem shiftLeft_or_ofBool_eq_shiftConcat (c : U16) (ib : Bool) :
    c <<< 1 ||| (BitVec.ofBool ib).setWidth 16 = c.shiftConcat ib := by
  ext i hi
  cases i <;> simp

theorem crcbit_eq_xor (c : U16) (ib : Bool) :
    crcbit c ib = c.shiftConcat ib ^^^ if c.getLsbD 15 then crcPoly else 0 := by
  simp only [crcbit, shiftLeft_or_ofBool_eq_shiftConcat]
  split
  · rfl
  · exact (BitVec.xor_zero).symm

theorem getLsbD_15_iff (c : U16) : c.getLsbD 15 = true ↔ 32768 ≤ c.toNat := by
  have h : c.getLsbD 15 = decide (32768 ≤ c.toNat) := BitVec.getLsbD_last c
  rw [h, decide_eq_true_iff]

theorem toNat_shiftConcat_u16 (c : U16) (ib : Bool) :
    (c.shiftConcat ib).toNat = 2 * c.toNat % 65536 + ib.toNat := by
  have := ib.toNat_lt
  rw [BitVec.toNat_shiftConcat, Nat.shiftLeft_eq]
  omega

/-- Settles O20: the shift with OR is a doubling and an addition, and the test of bit 15 a comparison. -/
theorem crcBitStep : Obligations.CrcBitStep := by
  intro c ib
  rw [crcbit_eq_xor, BitVec.toNat_xor, toNat_shiftConcat_u16]
  simp only [getLsbD_15_iff, crcPoly, apply_ite BitVec.toNat]
  rfl

/-- A value with bit 15 clear takes the input bit in at its low end, and nothing is lost. -/
theorem crcbit_toNat_of_lt (c : U16) (ib : Bool) (h : c.toNat < 32768) :
    (crcbit c ib).toNat = 2 * c.toNat + ib.toNat := by
  rw [crcBitStep, if_neg (by omega), Nat.xor_zero]
  omega

/-! ## Short input (R106, law 4) -/

/-- As long as no 1 bit is shifted out, the `n` low bits of a byte are appended to the value. -/
theorem foldl_crcbit_toNat_of_le (b : Byte) (n : Nat) : ∀ c : U16, (c.toNat + 1) * 2 ^ n ≤ 65536 →
    ((List.range n).reverse.foldl (fun c k => crcbit c (b.getLsbD k)) c).toNat =
      c.toNat * 2 ^ n + b.toNat % 2 ^ n := by
  induction n with
  | zero => simp [Nat.mod_one]
  | succ n ih =>
    intro c hc
    rw [Nat.pow_succ'] at hc
    have hn := Nat.two_pow_pos n
    have hbit := (b.getLsbD n).toNat_lt
    have hlt : c.toNat < 32768 := by nlinarith
    have hstep := crcbit_toNat_of_lt c (b.getLsbD n) hlt
    rw [List.range_succ, List.reverse_append, List.reverse_singleton, List.singleton_append,
      List.foldl_cons, ih _ (by rw [hstep]; nlinarith), hstep, Nat.mod_pow_succ, ← Nat.toNat_testBit,
      BitVec.testBit_toNat]
    ring

/-- A byte is appended to a value below 256. -/
theorem crcbyte_toNat_of_lt (c : U16) (b : Byte) (h : c.toNat < 256) :
    (crcbyte c b).toNat = c.toNat * 256 + b.toNat := by
  have := foldl_crcbit_toNat_of_le b 8 c (by omega)
  rwa [Nat.mod_eq_of_lt b.isLt] at this

/-- The register holds the first two bytes as they are. -/
theorem foldl_crcbyte_pair (x y : Byte) : [x, y].foldl crcbyte crcInit = rd16 [x, y] 0 := by
  have hx : (crcbyte crcInit x).toNat = x.toNat := by simpa [crcInit] using crcbyte_toNat_of_lt crcInit x
  have hy := crcbyte_toNat_of_lt (crcbyte crcInit x) y (hx ▸ x.isLt)
  apply BitVec.eq_of_toNat_eq
  simp only [List.foldl_cons, List.foldl_nil, hy, hx, rd16, byteAt, BitVec.toNat_ofNat,
    List.getD_cons_zero, List.getD_cons_succ]
  omega

/-- Consumed from the initial value, a trailer is its own checksum. -/
theorem foldl_crcbyte_be16 (v : U16) : (be16 v).foldl crcbyte crcInit = v := by
  rw [be16_eq, foldl_crcbyte_pair, ← be16_eq]
  exact rd16_be16 v []

/-! ## Linearity (R106, law 5) -/

theorem shiftConcat_xor (c d : U16) (i j : Bool) :
    (c ^^^ d).shiftConcat (i ^^ j) = c.shiftConcat i ^^^ d.shiftConcat j := by
  ext k hk
  cases k <;> simp [BitVec.getElem_shiftConcat]

theorem crcbit_xor (c d : U16) (i j : Bool) :
    crcbit (c ^^^ d) (i ^^ j) = crcbit c i ^^^ crcbit d j := by
  have hpoly : (if (c ^^^ d).getLsbD 15 then crcPoly else 0) =
      (if c.getLsbD 15 then crcPoly else 0) ^^^ if d.getLsbD 15 then crcPoly else 0 := by
    rw [BitVec.getLsbD_xor]
    cases c.getLsbD 15 <;> cases d.getLsbD 15 <;> rfl
  rw [crcbit_eq_xor, crcbit_eq_xor, crcbit_eq_xor, shiftConcat_xor, hpoly]
  ac_rfl

theorem crcbyte_xor (c d : U16) (x y : Byte) :
    crcbyte (c ^^^ d) (x ^^^ y) = crcbyte c x ^^^ crcbyte d y := by
  simp only [crcbyte, List.foldl_cons, List.foldl_nil, BitVec.getLsbD_xor, crcbit_xor]

@[simp] theorem xorBytes_cons (x y : Byte) (a b : List Byte) :
    xorBytes (x :: a) (y :: b) = (x ^^^ y) :: xorBytes a b := rfl

/-- The register is linear in its value and the bytes it consumes. -/
theorem foldl_crcbyte_xor (a b : List Byte) (c d : U16) (h : a.length = b.length) :
    (xorBytes a b).foldl crcbyte (c ^^^ d) = a.foldl crcbyte c ^^^ b.foldl crcbyte d := by
  induction a generalizing b c d with
  | nil =>
    obtain rfl := List.length_eq_zero_iff.mp h.symm
    rfl
  | cons x a ih =>
    obtain ⟨y, b, rfl⟩ := List.exists_cons_of_length_eq_add_one h.symm
    rw [xorBytes_cons, List.foldl_cons, crcbyte_xor]
    exact ih b _ _ (Nat.succ_injective h)

/-! ## The residual (R105) -/

/-- From the initial value, zero bytes leave the register zero (R106, law 2). -/
theorem foldl_crcbyte_zeros (n : Nat) : (zeros n).foldl crcbyte crcInit = crcInit := by
  induction n with
  | zero => rfl
  | succ n ih => rwa [zeros, List.replicate_succ, List.foldl_cons]

/-- Consuming two bytes differs from consuming the pad by exactly these bytes. -/
theorem foldl_crcbyte_be16_eq_xor (c v : U16) :
    (be16 v).foldl crcbyte c = (zeros 2).foldl crcbyte c ^^^ v := by
  have h := foldl_crcbyte_xor (zeros 2) (be16 v) c crcInit rfl
  rw [foldl_crcbyte_be16] at h
  simpa [crcInit, xorBytes, zeros, be16_eq] using h

/-- The whole of a buffer, with the pad or without it. -/
theorem crc16_of_length (b : List Byte) (n : Nat) (pad : Bool) (h : b.length = n) :
    crc16 b n pad = (zeros (crcPadBytes * pad.toNat)).foldl crcbyte (b.foldl crcbyte crcInit) := by
  rw [crc16, crcin, List.take_of_length_le h.le, List.foldl_append]

/-- Payload and trailer leave the register zero. -/
theorem foldl_crcbyte_append_trailer (b : List Byte) :
    (b ++ be16 (crc16 b b.length true)).foldl crcbyte crcInit = crcInit := by
  rw [List.foldl_append, foldl_crcbyte_be16_eq_xor, crc16_of_length b _ true rfl]
  exact BitVec.xor_self

/-- The checksum of payload and trailer, with the pad or without it. -/
theorem crc16_append_trailer (b : List Byte) (pad : Bool) :
    crc16 (b ++ be16 (crc16 b b.length true)) (b.length + 2) pad = 0 := by
  rw [crc16_of_length _ _ pad (by simp), foldl_crcbyte_append_trailer]
  exact foldl_crcbyte_zeros _

/-- Settles O21: the trailer clears the register, and the pad keeps it clear. -/
theorem crcResidualIsZero : Obligations.CrcResidualIsZero :=
  fun b => ⟨rfl, crc16_append_trailer b true, crc16_append_trailer b false⟩

end Sys2Proof.Machine
end

section
/-! PROOFS. The base64 text (R122, R123): its characters, where `=` stands, and encoding group by group. -/

namespace Sys2Proof.Machine

/-! ## Its characters -/

/-- A sextet's character is of the alphabet. -/
theorem b64Char_sextet_mem_alphabet (v k : Nat) : ∃ x < 64, b64Val (b64Char (sextet v k)) = some x :=
  ⟨sextet v k, sextet_lt v k, b64Val_b64Char _ (sextet_lt v k)⟩

theorem b64Char_sextet_ne_pad (v k : Nat) : b64Char (sextet v k) ≠ padChar :=
  b64Char_ne_pad _ (sextet_lt v k)

/-- A character of the text is `=` or of the alphabet. -/
theorem b64enc_char (b : List Byte) : ∀ c ∈ b64enc b, c = padChar ∨ ∃ x < 64, b64Val c = some x := by
  fun_induction b64enc b with
  | case1 => simp
  | case2 | case3 => simp [b64Char_sextet_mem_alphabet]
  | case4 b0 b1 b2 rest v ih => simpa [b64Char_sextet_mem_alphabet] using ih

/-- `=` stands in the last two places only. -/
theorem b64enc_length_le_of_pad (b : List Byte) :
    ∀ i, (b64enc b)[i]? = some padChar → (b64enc b).length ≤ i + 2 := by
  fun_induction b64enc b with
  | case1 => simp
  | case2 | case3 =>
    rintro (_ | _ | i) h
    case succ.succ => simp
    all_goals simp [b64Char_sextet_ne_pad] at h
  | case4 b0 b1 b2 rest v ih =>
    rintro (_ | _ | _ | _ | i) h
    case succ.succ.succ.succ =>
      have := ih i (by simpa using h)
      simp only [List.length_cons]
      omega
    all_goals simp [b64Char_sextet_ne_pad] at h

/-! ## Group by group -/

/-- Whole groups are encoded by themselves. -/
theorem b64enc_append (a b : List Byte) (h : a.length % 3 = 0) : b64enc (a ++ b) = b64enc a ++ b64enc b := by
  fun_induction b64enc a with
  | case1 => rfl
  | case2 | case3 => simp at h
  | case4 b0 b1 b2 rest v ih =>
    have hrest : rest.length % 3 = 0 := by
      simp only [List.length_cons] at h
      omega
    simp [b64enc, ih hrest, v]

/-- The text of `k` groups has `4k` characters. -/
theorem b64enc_length_take (b : List Byte) (k : Nat) (h : 3 * k ≤ b.length) :
    (b64enc (b.take (3 * k))).length = 4 * k := by
  rw [b64enc_length, List.length_take_of_le h]
  omega

/-- The text is that of the first `k` groups, then that of the rest. -/
theorem b64enc_split (b : List Byte) (k : Nat) (h : 3 * k ≤ b.length) :
    b64enc b = b64enc (b.take (3 * k)) ++ b64enc (b.drop (3 * k)) := by
  rw [← b64enc_append _ _ (by simp [List.length_take_of_le h]), List.take_append_drop]

theorem b64enc_take (b : List Byte) (k : Nat) (h : 3 * k ≤ b.length) :
    b64enc (b.take (3 * k)) = (b64enc b).take (4 * k) := by
  rw [b64enc_split b k h, List.take_left' (b64enc_length_take b k h)]

theorem b64enc_drop (b : List Byte) (k : Nat) (h : 3 * k ≤ b.length) :
    b64enc (b.drop (3 * k)) = (b64enc b).drop (4 * k) := by
  rw [b64enc_split b k h, List.drop_left' (b64enc_length_take b k h)]

/-- `m` groups from group `k` on are the matching groups of characters. -/
theorem b64enc_slice (b : List Byte) (k m : Nat) (h : 3 * k + 3 * m ≤ b.length) :
    b64enc (slice b (3 * k) (3 * k + 3 * m)) = slice (b64enc b) (4 * k) (4 * k + 4 * m) := by
  simp only [slice, Nat.add_sub_cancel_left]
  rw [b64enc_take _ m (by rw [List.length_drop]; omega), b64enc_drop b k (by omega)]

theorem b64enc_length_mod_four (b : List Byte) : (b64enc b).length % 4 = 0 := by
  rw [b64enc_length, Nat.mul_mod_right]

/-- Settles O30, by induction on the groups. -/
theorem base64Text : Obligations.Base64Text :=
  fun b => ⟨b64enc_length b, b64enc_length_mod_four b, b64enc_char b, b64enc_length_le_of_pad b,
    fun a => b64enc_append a b, b64enc_slice b⟩

end Sys2Proof.Machine
end

section
/-! PROOFS. The segment lines an accepted `FRSEND` sets (R126 to R128). -/

namespace Sys2Proof.Machine

theorem frameLines_length (f : List Byte) : (frameLines f).length = ceilDiv (b64enc f).length 124 := by
  rw [frameLines, seglines_length, split124_length, segMaxChars]

/-- Line `k` is its marker, piece `k` of the text, and `LF`. -/
theorem frameLines_get (f : List Byte) (k : Nat) (h : k < (frameLines f).length) :
    (frameLines f)[k]? = some ((if k = 0 then startMarker else contMarker) ++
      slice (b64enc f) (124 * k) (124 * k + 124) ++ [lf]) := by
  rw [frameLines, seglines_get, split124_get _ k (frameLines_length f ▸ h), Option.map_some, slice,
    Nat.add_sub_cancel_left]
  split <;> rfl

/-- Piece `k` of a text has 124 characters, or what remains (R127). -/
theorem piece_length (e : List Byte) (k : Nat) :
    (slice e (124 * k) (124 * k + 124)).length = min 124 (e.length - 124 * k) := by
  rw [slice, Nat.add_sub_cancel_left, List.length_take, List.length_drop]

/-- The text of a frame, with its length prefix and trailer, has at least two groups. -/
theorem b64enc_frameBytes_length_ge (p : List Byte) : 8 ≤ (b64enc (frameBytes p)).length := by
  rw [b64enc_length, frameBytes_length]
  omega

/-- Settles O34: the lines are the frame's, and the pieces of a text of whole groups are whole groups. -/
theorem frsendSetsLines : Obligations.FrsendSetsLines := by
  intro p s _ hp
  refine ⟨frameLines (frameBytes p), congrArg Host.Outcome.next (startFrsend_of_le p s hp),
    b64enc_frameBytes_length_ge p, frameLines_length _, frameLines_length_pos _ (by simp), fun k hk => ?_⟩
  refine ⟨_, frameLines_get _ k hk, rfl, ?_⟩
  have hgroups := b64enc_length_mod_four (frameBytes p)
  have hcount := frameLines_length (frameBytes p)
  rw [ceilDiv] at hcount
  rw [piece_length, ← frameBytes]
  omega

end Sys2Proof.Machine
end

section
/-! PROOFS. The start of `FRRECV` (R150, R151), the segment that completes a frame (R165, R166), and the ends
of the command (R167, R168). A line that leaves the frame incomplete leaves `CTRL` as it is; so a step that
moves `CTRL` took the line whose data ends the frame. -/

namespace Sys2Proof.Machine

/-- Settles O42: `FRRECV` up to its first read is this one update of the RX state. -/
theorem frrecvStarts : Obligations.FrrecvStarts := fun _ => rfl

section
variable {s t : State} {d x a l text : List Byte} {total r : U16} {ov : Bool} {p : CrcPolicy}

/-! ## The result of a complete frame (R65, R166) -/

@[simp] theorem frameStatus_zero : frameStatus 0 = stOk := rfl

theorem frameStatus_of_ne_zero (h : r ≠ 0) : frameStatus r = stCrcWarn := if_neg h

/-- A frame that ends the command gives `OK`, or `CRC_WARN` under `ACCEPT`. -/
theorem frameStatus_cases (h : r = 0 ∨ p = .accept) :
    (frameStatus r = stOk ∧ r = 0) ∨ (frameStatus r = stCrcWarn ∧ r ≠ 0 ∧ p = .accept) := by
  by_cases hr : r = 0
  · exact .inl ⟨by rw [hr, frameStatus_zero], hr⟩
  · exact .inr ⟨frameStatus_of_ne_zero hr, hr, h.resolve_left hr⟩

/-- The length in the result is the expected total without the trailer. -/
theorem be16_sub_two (h : 2 ≤ total.toNat) : be16 (total - 2) = be16Nat (total.toNat - 2) :=
  congrArg be16 (by bv_omega)

/-! ## The segment that completes a frame (R162 to R166) -/

/-- The RX engine with `b` accumulated of a frame whose expected total is `total` (R162). -/
def holdFrame (total : U16) (b : List Byte) (s : State) : State :=
  { s with rxph := .accum, exp := total, acc := b }

theorem eq_holdFrame_of_accum (hr : s.rxph = .accum) (he : s.exp = total) : s = holdFrame total s.acc s := by
  rw [holdFrame, ← hr, ← he]

theorem completeFrame_holdFrame_accepted (h2 : 2 ≤ total.toNat)
    (h : crc16 a total.toNat true = 0 ∨ s.params.crcPolicy = .accept) :
    completeFrame (holdFrame total a s) = finish (frameStatus (crc16 a total.toNat true))
      (be16Nat (total.toNat - 2) ++ be16 (crc16 a total.toNat true) ++ a.take (total.toNat - 2))
      (holdFrame total a s) := by
  rw [← be16_sub_two h2]
  rcases completeFrame_cases (holdFrame total a s) with ⟨hr, hp, -⟩ | ⟨-, e⟩
  · rcases h with h | h
    · exact absurd h hr
    · cases h.symm.trans hp
  · exact e

theorem completeFrame_holdFrame_rejected (hr : crc16 a total.toNat true ≠ 0)
    (hp : s.params.crcPolicy = .reject) : completeFrame (holdFrame total a s) = abandonFrame s :=
  if_pos ⟨hr, hp⟩

theorem appendData_holdFrame_completes (b : List Byte) (s : State) (h : (b ++ x).length = total.toNat) :
    appendData x (holdFrame total b s) = completeFrame (holdFrame total (b ++ x) s) := by
  rw [List.length_append] at h
  rcases appendData_cases x (holdFrame total b s) with ⟨hl, -⟩ | ⟨-, e⟩ | ⟨hl, -⟩
  · exact absurd h hl.ne'
  · exact e
  · exact absurd h hl.ne

/-- A start segment whose total is in range begins a new frame with the bytes after the total (R162). -/
theorem takeStart_of_total (h2 : 2 ≤ total.toNat) (hcap : total.toNat ≤ s.params.rxCap) :
    takeStart (be16 total ++ a) s = appendData a (holdFrame total [] s) := by
  have hlen : ¬ (be16 total ++ a).length < 2 := by rw [List.length_append, be16_length]; omega
  have hrange : ¬ (total.toNat < 2 ∨ s.params.rxCap < total.toNat) := by omega
  simp only [takeStart, rd16_be16, if_neg hlen, if_neg hrange]
  rfl

theorem takeCont_of_accum (d : List Byte) (h : s.rxph = .accum) : takeCont d s = appendData d s := by
  simp only [takeCont, h]

theorem takeSegment_of_b64dec (take : List Byte → State → State) (s : State) (h : b64dec text = some d)
    (hd : d ≠ []) : takeSegment take text s = take d s := by
  simp [takeSegment, segmentData, h, hd]

theorem exec_segStart_of_frrecv (text : List Byte) (hc : s.ctrl = .busy .frrecv) :
    exec (.segStart text) s = .next (takeSegment takeStart text s) := by
  rw [exec, execSegStart, hc]

theorem exec_segCont_of_frrecv (text : List Byte) (hc : s.ctrl = .busy .frrecv) :
    exec (.segCont text) s = .next (takeSegment takeCont text s) := by
  rw [exec, execSegCont, hc]

theorem exec_segStart_completes (hc : s.ctrl = .busy .frrecv) (h2 : 2 ≤ total.toNat)
    (ha : a.length = total.toNat) (hd : b64dec text = some (be16 total ++ a))
    (hcap : total.toNat ≤ s.params.rxCap) :
    exec (.segStart text) s = .next (completeFrame (holdFrame total a s)) := by
  rw [exec_segStart_of_frrecv text hc, takeSegment_of_b64dec takeStart s hd (by simp [be16]),
    takeStart_of_total h2 hcap, appendData_holdFrame_completes [] s ha, List.nil_append]

theorem exec_segCont_completes (hc : s.ctrl = .busy .frrecv) (hr : s.rxph = .accum) (he : s.exp = total)
    (ha : (s.acc ++ x).length = total.toNat) (hd : b64dec text = some x) (hx : x ≠ []) :
    exec (.segCont text) s = .next (completeFrame (holdFrame total (s.acc ++ x) s)) := by
  have happend : appendData x s = completeFrame (holdFrame total (s.acc ++ x) s) := by
    rw [← appendData_holdFrame_completes s.acc s ha, ← eq_holdFrame_of_accum hr he]
  rw [exec_segCont_of_frrecv text hc, takeSegment_of_b64dec takeCont s hd hx, takeCont_of_accum x hr, happend]

/-! ## The segment of a step that ends the command (R168) -/

/-- The line `l` completes in `s` the frame that `t` holds: a start segment of the total and all its bytes,
or a continuation that extends the frame in progress. -/
def CompletingLine (l : List Byte) (s t : State) : Prop :=
  ((lineBody l).take 2 = startMarker ∧ b64dec ((lineBody l).drop 2) = some (be16 t.exp ++ t.acc)) ∨
  ((lineBody l).take 2 = contMarker ∧ s.rxph = .accum ∧ t.exp = s.exp ∧
    ∃ x, b64dec ((lineBody l).drop 2) = some x ∧ t.acc = s.acc ++ x)

theorem completeFrame_keeps_frame (h : (completeFrame s).ctrl ≠ s.ctrl) :
    (completeFrame s).exp = s.exp ∧ (completeFrame s).acc = s.acc := by
  rcases completeFrame_cases s with ⟨-, -, e⟩ | ⟨-, e⟩ <;> rw [e] at h ⊢
  · simp at h
  · simp

theorem appendData_extends_frame (h : (appendData x s).ctrl ≠ s.ctrl) :
    (appendData x s).exp = s.exp ∧ (appendData x s).acc = s.acc ++ x := by
  rcases appendData_cases x s with ⟨-, e⟩ | ⟨-, e⟩ | ⟨-, e⟩ <;> rw [e] at h ⊢
  · simp at h
  · exact completeFrame_keeps_frame h
  · exact absurd rfl h

/-- The first two bytes of a string are the total read from them. -/
theorem be16_rd16_append_drop (h : 2 ≤ d.length) : be16 (rd16 d 0) ++ d.drop 2 = d := by
  match d, h with
  | b0 :: b1 :: rest, _ => exact congrArg (· ++ rest) (be16_rd16 b0 b1)

theorem takeStart_holds_frame (h : (takeStart d s).ctrl ≠ s.ctrl) :
    d = be16 (takeStart d s).exp ++ (takeStart d s).acc := by
  rcases takeStart_cases d s with e | ⟨hlen, -, -, e⟩ <;> rw [e] at h ⊢
  · exact absurd rfl h
  · obtain ⟨hexp, hacc⟩ := appendData_extends_frame h
    rw [hexp, hacc, List.nil_append, be16_rd16_append_drop hlen]

theorem takeCont_extends_frame (h : (takeCont d s).ctrl ≠ s.ctrl) :
    s.rxph = .accum ∧ (takeCont d s).exp = s.exp ∧ (takeCont d s).acc = s.acc ++ d := by
  rcases takeCont_cases d s with ⟨-, e⟩ | ⟨hr, e⟩ <;> rw [e] at h ⊢
  · exact absurd rfl h
  · exact ⟨hr, appendData_extends_frame h⟩

theorem takeSegment_takes (take : List Byte → State → State)
    (h : (takeSegment take text s).ctrl ≠ s.ctrl) :
    ∃ d, b64dec text = some d ∧ takeSegment take text s = take d s := by
  rcases takeSegment_cases take text s with e | ⟨d, hd, -, e⟩
  · rw [e] at h; exact absurd rfl h
  · exact ⟨d, hd, e⟩

theorem stripCr_eq_lineBody (l : List Byte) : stripCr l = lineBody l := by
  cases l with
  | nil => rfl
  | cons b rest =>
    have hhead : (b :: rest).head? = some 0x0D ↔ b = cr := by simp [cr]
    rw [stripCr, lineBody]
    by_cases hb : b = cr
    · rw [if_pos hb, if_pos (hhead.mpr hb), List.tail_cons]
    · rw [if_neg hb, if_neg (mt hhead.mp hb)]

/-- A line is discarded, or its segment is executed (R154 to R157). -/
theorem takeLine_eq_exec (l : List Byte) (ov : Bool) (s : State) : takeLine l ov s = .next s ∨
    ov = false ∧ ∃ i, decodeLine (lineBody l) = .ok i ∧ takeLine l ov s = exec i s := by
  unfold takeLine
  rw [stripCr_eq_lineBody]
  cases ov with
  | true => exact .inl rfl
  | false =>
    cases hl : decodeLine (lineBody l) with
    | error => exact .inl rfl
    | ok i => exact .inr ⟨rfl, i, rfl, rfl⟩

theorem takeLine_completes (h : takeLine l ov s = .next t) (hc : s.ctrl = .busy .frrecv)
    (hend : t.ctrl ≠ s.ctrl) : ov = false ∧ CompletingLine l s t := by
  rcases takeLine_eq_exec l ov s with e | ⟨hov, i, hi, e⟩ <;> rw [e] at h
  · cases h; exact absurd rfl hend
  · refine ⟨hov, ?_⟩
    rcases decodeLine_ok _ i hi with ⟨hmark, rfl⟩ | ⟨hmark, rfl⟩
    · rw [exec_segStart_of_frrecv _ hc] at h
      cases h
      obtain ⟨d, hd, e⟩ := takeSegment_takes takeStart hend
      rw [e] at hend ⊢
      exact .inl ⟨hmark, hd.trans (congrArg some (takeStart_holds_frame hend))⟩
    · rw [exec_segCont_of_frrecv _ hc] at h
      cases h
      obtain ⟨d, hd, e⟩ := takeSegment_takes takeCont hend
      rw [e] at hend ⊢
      obtain ⟨hr, hexp, hacc⟩ := takeCont_extends_frame hend
      exact .inr ⟨hmark, hr, hexp, d, hd, hacc⟩

end

/-- Settles O48: a start or a continuation that ends the frame gives it to the check, which has three
outcomes. -/
theorem completedFrame : Obligations.CompletedFrame := by
  intro text x a total s i hc h2 ha hseg
  have hexec : exec i s = .next (completeFrame (holdFrame total a s)) := by
    rcases hseg with ⟨rfl, hd, hcap⟩ | ⟨rfl, hd, hx, hr, he, rfl⟩
    · exact exec_segStart_completes hc h2 ha hd hcap
    · exact exec_segCont_completes hc hr he ha hd hx
  rw [hexec]
  refine ⟨fun hr => ?_, fun hr hp => ?_, fun hr hp => ?_⟩
  · rw [completeFrame_holdFrame_accepted h2 (.inl hr), hr]
    rfl
  · rw [completeFrame_holdFrame_accepted h2 (.inr hp), frameStatus_of_ne_zero hr]
    rfl
  · rw [completeFrame_holdFrame_rejected hr hp]
    rfl

/-- Settles O53, by the cases of the RX engine's step: only a line can end the command before the deadline,
and only one that completes the frame. -/
theorem frrecvEndings : Obligations.FrrecvEndings := by
  intro s t hc h
  rw [engineStep_frrecv s hc] at h
  rcases rxStep_cases s with ⟨-, e⟩ | ⟨tick, b, rest, hs, hn, ht, ⟨-, e⟩ | ⟨rfl, e⟩⟩ <;> rw [e] at h
  case inl =>
    cases h
    exact .inr (.inl ⟨rfl, Nat.le_max_right .., rfl, rfl⟩)
  case inr.inl =>
    cases h
    rw [addToLine_effect]
    exact .inl ⟨hc, rfl⟩
  case inr.inr =>
    obtain ⟨t', e', hframe, heffect⟩ := takeLine_effect s.line s.lovf
      { s with now := max s.now tick, source := rest, line := [], lovf := false } hc
    cases h.symm.trans e'
    rcases heffect with ⟨hctrl, hres⟩ | ⟨hidle, hlen, hstatus, hres⟩
    · exact .inl ⟨hctrl.trans hc, hres⟩
    · obtain ⟨hov, hline⟩ := takeLine_completes h hc (by rw [hidle, hc]; nofun)
      have hnow : t.now = max s.now tick := congrArg State.now hframe
      have hsource : t.source = rest := congrArg State.source hframe
      refine .inr (.inr ⟨hidle, by omega, ⟨tick, hsource ▸ hs⟩, hov, hlen, hline, _, ?_, hres⟩)
      exact frameStatus_cases hstatus

end Sys2Proof.Machine
end

section
/-! PROOFS. The NMP header builder and parser (43_nmp_header.md): the fields `HDRPRS` compares, the header that
`HDRBLD` returns, and the sequence numbers of headers built in a row. -/

namespace Sys2Proof.Machine

/-! ## The parser's comparison (R187 to R189) -/

/-- Two bytes make a 16-bit value exactly when their big-endian number is that value (R8). -/
theorem rd16_pair_eq_iff (a b : Byte) (v : U16) : rd16 [a, b] 0 = v ↔ a.toNat * 256 + b.toNat = v.toNat := by
  have hnat : (rd16 [a, b] 0).toNat = a.toNat * 256 + b.toNat := by
    simp only [rd16, byteAt, List.getD_cons_zero, List.getD_cons_succ, Nat.zero_add, BitVec.toNat_ofNat]
    omega
  rw [← hnat, BitVec.toNat_inj]

/-- The parser on a response that holds a header: it takes the eight bytes and what follows them (R187, R189). -/
theorem runParser_header_append (eop : Byte) (egroup : U16) (eid op flags l1 l0 g1 g0 sq id : Byte)
    (body : List Byte) (s : State) :
    runParser eop egroup eid ([op, flags, l1, l0, g1, g0, sq, id] ++ body) s =
      finish (matchStatus op (rd16 [g1, g0] 0) id eop egroup eid)
        ([op, flags, l1, l0, g1, g0, sq, id] ++ be16Nat body.length ++ body) s := rfl

/-- Settles O28: the parser's test of `group` compares all 16 bits. -/
theorem hdrprsMatches : Obligations.HdrprsMatches := by
  intro eop egroup eid op flags l1 l0 g1 g0 sq id body s
  simp only [← rd16_pair_eq_iff]
  exact congrArg Host.Outcome.next (runParser_header_append eop egroup eid op flags l1 l0 g1 g0 sq id body s)

/-! ## The sequence number (R183, R184) -/

/-- `SEQ` after `n` increments, as a number mod 256 (R183). -/
theorem add_ofNat_eq_ofNat_mod (sq : Byte) (n : Nat) :
    sq + BitVec.ofNat 8 n = BitVec.ofNat 8 ((sq.toNat + n) % 256) := by
  apply BitVec.eq_of_toNat_eq
  simp

theorem add_ofNat_succ (sq : Byte) (n : Nat) : sq + BitVec.ofNat 8 (n + 1) = sq + 1 + BitVec.ofNat 8 n := by
  rw [Nat.add_comm, BitVec.ofNat_add, BitVec.add_assoc]
  rfl

/-- The values of `SEQ` after different numbers of increments, less than 256 apart, differ. -/
theorem add_ofNat_ne_add_ofNat (sq : Byte) {i j : Nat} (hij : i < j) (hj : j < i + 256) :
    sq + BitVec.ofNat 8 i ≠ sq + BitVec.ofNat 8 j := by
  intro h
  have hmod : i % 256 = j % 256 := congrArg BitVec.toNat ((BitVec.add_right_inj sq).mp h)
  omega

/-- Settles O24: the builder increments `SEQ` mod 256 and delivers the layout of R75. -/
theorem hdrbldBuilds : Obligations.HdrbldBuilds := by
  intro op group id blen s
  rw [← add_ofNat_eq_ofNat_mod]
  rfl

/-! ## The results of headers built in a row -/

/-- The operands `op`, `group`, `id`, `blen` of `HDRBLD` (R66). -/
abbrev HdrbldOperands := Byte × U16 × Byte × U16

/-- The descriptor of an `HDRBLD`, as the host presents it (R66). -/
def HdrbldOperands.command (o : HdrbldOperands) : Input :=
  .command (encode (.hdrbld o.1 o.2.1 o.2.2.1 o.2.2.2))

/-- The result of an `HDRBLD` that finds `SEQ` at `sq` (R66, R180). -/
def builtResult (sq : Byte) (o : HdrbldOperands) : List Byte :=
  stOk :: build o.1 o.2.1 o.2.2.1 o.2.2.2 sq

/-- The results of headers built in a row, the first of which finds `SEQ` at `sq` (R184). -/
def builtResults (sq : Byte) (ops : List HdrbldOperands) : List (List Byte) :=
  ops.mapIdx fun i o => builtResult (sq + BitVec.ofNat 8 i) o

section
variable (sq : Byte) (o : HdrbldOperands) (ops : List HdrbldOperands)

theorem byteAt_builtResult_seq : byteAt (builtResult sq o) 7 = sq := rfl

@[simp] theorem builtResults_length : (builtResults sq ops).length = ops.length := List.length_mapIdx

theorem builtResults_cons :
    builtResults sq (o :: ops) = builtResult sq o :: builtResults (sq + 1) ops := by
  have hzero : sq + BitVec.ofNat 8 0 = sq := BitVec.add_zero sq
  simp only [builtResults, List.mapIdx_cons, add_ofNat_succ, hzero]

/-- The `seq` byte of the `i`-th header in a row. -/
theorem byteAt_builtResults_seq (before : List (List Byte)) {i : Nat} (hi : i < ops.length) :
    byteAt ((before ++ builtResults sq ops).getD (before.length + i) []) 7 = sq + BitVec.ofNat 8 i := by
  have hget : (before ++ builtResults sq ops).getD (before.length + i) [] =
      builtResult (sq + BitVec.ofNat 8 i) ops[i] := by
    simp [builtResults, hi]
  rw [hget, byteAt_builtResult_seq]

end

/-! ## The run of headers built in a row -/

theorem decode_encode_hdrbld (op : Byte) (group : U16) (id : Byte) (blen : U16) :
    decode (encode (.hdrbld op group id blen)) = .ok (.hdrbld op group id blen) := by
  have hdecode : decode (encode (.hdrbld op group id blen)) =
      .ok (.hdrbld op (rd16 (be16 group ++ []) 0) id (rd16 (be16 blen ++ []) 0)) := rfl
  rw [hdecode, rd16_be16, rd16_be16]

/-- The state after the headers of `ops` have been built in a row from an agenda of nothing else (R184). -/
def afterHeaders (ops : List HdrbldOperands) (s : State) : State :=
  { s with
    ctrl := .idle
    seq := s.seq + BitVec.ofNat 8 ops.length
    agenda := []
    results := s.results ++ builtResults s.seq ops }

theorem run_succ_of_step {M : Host.Core} {s t : M.State} (k : Nat) (h : M.step s = .next t) :
    M.run (k + 1) s = M.run k t := by
  rw [Host.Core.run, h]

section
variable {s : State} {o : HdrbldOperands} {ops : List HdrbldOperands} {rest : List Input}

/-- An idle block takes the `HDRBLD` descriptor of a free host and runs the builder (R26, R60, R181). -/
theorem step_hdrbld_command (hc : s.ctrl = .idle) (hh : s.host = .free) (ha : s.agenda = o.command :: rest) :
    step s = .next (runBuilder o.1 o.2.1 o.2.2.1 o.2.2.2 { s with agenda := rest }) := by
  have hacc : s.accepting := ⟨hc, hh⟩
  rw [step, systemStep, ha, HdrbldOperands.command]
  simp only [if_pos hacc, runDescriptor, decode_encode_hdrbld]
  rfl

theorem afterHeaders_nil (hc : s.ctrl = .idle) (ha : s.agenda = []) : afterHeaders [] s = s := by
  have hseq : s.seq + BitVec.ofNat 8 0 = s.seq := BitVec.add_zero s.seq
  rw [afterHeaders, List.length_nil, hseq, builtResults, List.mapIdx_nil, List.append_nil, ← hc, ← ha]

/-- The first header of a row, then the others. -/
theorem afterHeaders_runBuilder :
    afterHeaders ops (runBuilder o.1 o.2.1 o.2.2.1 o.2.2.2 { s with agenda := rest }) =
      afterHeaders (o :: ops) s := by
  simp only [afterHeaders, List.length_cons, add_ofNat_succ, builtResults_cons]
  rw [List.append_cons s.results]
  rfl

/-- The whole effect of `HDRBLD` descriptors in a row: one step each (R184). -/
theorem run_hdrbld_commands (hc : s.ctrl = .idle) (hh : s.host = .free)
    (ha : s.agenda = ops.map HdrbldOperands.command) :
    Host.Core.run core ops.length s = .next (afterHeaders ops s) := by
  induction ops generalizing s with
  | nil => exact congrArg Host.Outcome.next (afterHeaders_nil hc ha).symm
  | cons o ops ih =>
    have hstep := step_hdrbld_command (rest := ops.map HdrbldOperands.command) hc hh ha
    calc Host.Core.run core (ops.length + 1) s
      _ = Host.Core.run core ops.length _ := run_succ_of_step ops.length hstep
      _ = .next (afterHeaders ops _) := ih rfl hh rfl
      _ = .next (afterHeaders (o :: ops) s) := congrArg Host.Outcome.next afterHeaders_runBuilder

end

/-- Settles O26: the run leaves `afterHeaders`, in which each header's `seq` is read off its index. -/
theorem sequenceNumbers : Obligations.SequenceNumbers := by
  intro s ops hc hh ha
  refine ⟨afterHeaders ops s, run_hdrbld_commands hc hh ha, rfl, rfl, add_ofNat_eq_ofNat_mod _ _,
    fun hwrap => ?_, ?_, fun i hi => ⟨?_, fun j hj hij hlt => ?_⟩⟩
  · simp [afterHeaders, hwrap]
  · simp [afterHeaders]
  · exact (byteAt_builtResults_seq _ _ _ hi).trans (add_ofNat_eq_ofNat_mod _ _)
  · rw [afterHeaders, byteAt_builtResults_seq _ _ _ hi, byteAt_builtResults_seq _ _ _ hj]
    exact add_ofNat_ne_add_ofNat _ hij hlt

end Sys2Proof.Machine
end

section
/-! PROOFS. The commands that end at once with a status and no other effect (60_exceptions.md): `TOO_LONG`
(R202) and `ILLEGAL_CMD` (R201). The decoder refuses a malformed descriptor by name or reads it as a reserved
row, and either way the one effect is `finishIllegal`. -/

namespace Sys2Proof.Machine

/-! ## TOO_LONG (R202) -/

theorem startFrsend_of_lt (p : List Byte) (s : State) (h : s.params.txMaxPayload < p.length) :
    startFrsend p s = finish stTooLong [] s := by
  rcases startFrsend_cases p s with ⟨-, e⟩ | ⟨hle, -⟩
  · exact e
  · omega

/-- Settles O33: the length check comes before the TX state is set. -/
theorem frsendTooLong : Obligations.FrsendTooLong :=
  fun p s h => congrArg Host.Outcome.next (startFrsend_of_lt p s h)

/-! ## What the operand decoders accept (R63 to R67) -/

theorem descriptorLength_crc16 (pb n1 n0 : Byte) (data : List Byte) :
    descriptorLength (0x01 :: pb :: n1 :: n0 :: data) = (rd16 [n1, n0] 0).toNat + 4 := Nat.add_comm ..

theorem descriptorLength_frsend (n1 n0 : Byte) (payload : List Byte) :
    descriptorLength (0x02 :: n1 :: n0 :: payload) = (rd16 [n1, n0] 0).toNat + 3 := Nat.add_comm ..

theorem descriptorLength_hdrprs (eop g1 g0 eid l1 l0 : Byte) (resp : List Byte) :
    descriptorLength (0x05 :: eop :: g1 :: g0 :: eid :: l1 :: l0 :: resp) =
      (rd16 [l1, l0] 0).toNat + 7 := Nat.add_comm ..

section
variable {opc : Byte} {operands : List Byte} {i : Instr}

/-- A descriptor that begins with a command's `OPC` is well-formed where `PB` and the length are right. -/
theorem not_malformed_cons (hopc : opc ≠ 0x00) (hlow : opc.toNat < 0x06)
    (hpb : opc = 0x01 → byteAt operands 0 &&& 0xFE = 0)
    (hlen : operands.length + 1 = descriptorLength (opc :: operands)) : ¬ Malformed (opc :: operands) := by
  rintro (hnil | hzero | hhigh | ⟨hone, hbits⟩ | hbad)
  · exact List.cons_ne_nil _ _ hnil
  · exact hopc hzero
  · exact absurd hlow (Nat.not_lt.mpr hhigh)
  · exact hbits (hpb hone)
  · exact hbad hlen

/-- What a decoder's guarded branch accepts has passed the guard. -/
theorem of_guarded_eq_ok {c : Prop} [Decidable c] {e : DecodeError} {r : Except DecodeError Instr}
    (h : (if c then .error e else r) = .ok i) : ¬ c ∧ r = .ok i := by
  split at h
  · cases h
  · exact ⟨‹_›, h⟩

theorem not_malformed_of_decodeCrc16 (h : decodeCrc16 operands = .ok i) : ¬ Malformed (0x01 :: operands) := by
  match operands with
  | [] | [_] | [_, _] => cases h
  | pb :: n1 :: n0 :: data =>
    obtain ⟨hpb, h⟩ := of_guarded_eq_ok h
    obtain ⟨hlen, -⟩ := of_guarded_eq_ok h
    refine not_malformed_cons (by decide) (by decide) (fun _ => not_not.mp hpb) ?_
    rw [descriptorLength_crc16, ← not_not.mp hlen]
    rfl

theorem not_malformed_of_decodeFrsend (h : decodeFrsend operands = .ok i) : ¬ Malformed (0x02 :: operands) := by
  match operands with
  | [] | [_] => cases h
  | n1 :: n0 :: payload =>
    obtain ⟨hlen, -⟩ := of_guarded_eq_ok h
    refine not_malformed_cons (by decide) (by decide) nofun ?_
    rw [descriptorLength_frsend, ← not_not.mp hlen]
    rfl

theorem not_malformed_of_decodeFrrecv (h : decodeFrrecv operands = .ok i) : ¬ Malformed (0x03 :: operands) := by
  match operands with
  | [] => exact not_malformed_cons (by decide) (by decide) nofun rfl
  | _ :: _ => cases h

theorem not_malformed_of_decodeHdrbld (h : decodeHdrbld operands = .ok i) : ¬ Malformed (0x04 :: operands) := by
  unfold decodeHdrbld at h
  split at h
  · exact not_malformed_cons (by decide) (by decide) nofun rfl
  · cases h

theorem not_malformed_of_decodeHdrprs (h : decodeHdrprs operands = .ok i) : ¬ Malformed (0x05 :: operands) := by
  unfold decodeHdrprs at h
  split at h
  · obtain ⟨hlen, -⟩ := of_guarded_eq_ok h
    refine not_malformed_cons (by decide) (by decide) nofun ?_
    rw [descriptorLength_hdrprs, ← not_not.mp hlen]
    rfl
  · cases h

end

/-! ## ILLEGAL_CMD (R201) -/

section
variable {d : List Byte} {s : State} {rest : List Input}

/-- A descriptor that decodes is well-formed, or it is of a reserved row (R62, R77). -/
theorem decode_ok_cases {i : Instr} (h : decode d = .ok i) :
    ¬ Malformed d ∨ (∃ tail, i = .reserved00 tail) ∨ ∃ opc tail, i = .reservedHi opc tail := by
  cases d with
  | nil => cases h
  | cons opc operands =>
    rw [decode] at h
    split_ifs at h with h0 h1 h2 h3 h4 h5
    · cases h; exact .inr (.inl ⟨operands, rfl⟩)
    · subst h1; exact .inl (not_malformed_of_decodeCrc16 h)
    · subst h2; exact .inl (not_malformed_of_decodeFrsend h)
    · subst h3; exact .inl (not_malformed_of_decodeFrrecv h)
    · subst h4; exact .inl (not_malformed_of_decodeHdrbld h)
    · subst h5; exact .inl (not_malformed_of_decodeHdrprs h)
    · cases h; exact .inr (.inr ⟨opc, operands, rfl⟩)

theorem runDescriptor_of_malformed (h : Malformed d) :
    runDescriptor d s = .next (finishIllegal s) := by
  rw [runDescriptor]
  cases hd : decode d with
  | error => rfl
  | ok i =>
    rcases decode_ok_cases hd with hwell | ⟨tail, rfl⟩ | ⟨opc, tail, rfl⟩
    · exact absurd h hwell
    · rfl
    · rfl

/-- An idle block takes the descriptor of a free host (R26, R60). -/
theorem step_command (hc : s.ctrl = .idle) (hh : s.host = .free) (ha : s.agenda = .command d :: rest) :
    step s = runDescriptor d { s with agenda := rest } := by
  have haccepting : s.accepting := ⟨hc, hh⟩
  rw [step, systemStep, ha]
  exact if_pos haccepting

end

/-- Settles O8: the step runs the descriptor, and running a malformed one only delivers `ILLEGAL_CMD`. -/
theorem illegalDescriptorEnds : Obligations.IllegalDescriptorEnds := by
  intro s d rest hc hh ha hbad
  rw [step_command hc hh ha, runDescriptor_of_malformed hbad]
  rfl

end Sys2Proof.Machine
end

section
/-! PROOFS. `RESET` and power-on (70_reset_and_hazards.md). One step takes a `RESET` whatever the block and
the host are doing (R230), and what it leaves is power-on but for the environment: time, the source, the
sink, the agenda and what was delivered (R232). -/

namespace Sys2Proof.Machine

/-- `RESET` is taken whatever `CTRL` and the host's phase are (R230). -/
theorem step_reset {s : State} {rest : List Input} (ha : s.agenda = .reset :: rest) :
    step s = .next (resetEvent { s with agenda := rest }) := by
  rw [step, systemStep, ha]

/-- What `RESET` leaves is power-on with the environment as it was (R230, R232). -/
theorem resetEvent_eq_resetWith (s : State) :
    resetEvent s = { State.resetWith s.params with
      now := s.now, source := s.source, sinkPlan := s.sinkPlan, draws := s.draws, sent := s.sent
      agenda := s.agenda, results := s.results, returns := s.returns } := rfl

theorem resetWith_seq (p : Params) : (State.resetWith p).seq = p.seqInit := rfl

/-- Settles O15: the step is `resetEvent`, whose fields are those of the statement. -/
theorem resetInput : Obligations.ResetInput := by
  intro s rest ha
  refine ⟨_, step_reset ha, ?_⟩
  simp only [resetEvent_fields, and_self]

/-- Settles O16: what the step leaves is power-on in every field the statement compares. -/
theorem powerOnIsReset : Obligations.PowerOnIsReset := by
  intro s t rest ha hstep
  have ht : t = resetEvent { s with agenda := rest } :=
    (Host.Outcome.next.inj ((step_reset ha).symm.trans hstep)).symm
  rw [ht, resetEvent_eq_resetWith]
  simp only [resetWith_seq, and_self]

end Sys2Proof.Machine
end

section
/-! PROOFS. The decoders and the encoder (30_encoding.md): one lemma an encoding space for each direction of
the round trip, and the descriptors that decode to one of the five commands. -/

namespace Sys2Proof.Machine

/-! ## Big-endian fields (R8) -/

@[simp] theorem rd16_be16_bytes (v : U16) : rd16 [v.extractLsb' 8 8, v.extractLsb' 0 8] 0 = v :=
  rd16_be16 v []

theorem toNat_rd16_le (b : List Byte) (i : Nat) : (rd16 b i).toNat ≤ 65535 := Nat.le_of_lt_succ (rd16 b i).isLt

theorem be16Nat_toNat (v : U16) : be16Nat v.toNat = be16 v := by
  rw [be16Nat, BitVec.ofNat_toNat, BitVec.setWidth_eq]

/-- A length field that counts `n` is `be16(n)`. -/
theorem be16Nat_of_eq_rd16 {n : Nat} {a b : Byte} (h : n = (rd16 [a, b] 0).toNat) : be16Nat n = [a, b] := by
  rw [h, be16Nat_toNat, be16_rd16]

theorem byteAt_drop (f : List Byte) (k i : Nat) : byteAt (f.drop k) i = byteAt f (k + i) := by
  simp [byteAt]

/-- A field read within a string is the first field of what follows its place. -/
theorem rd16_eq_rd16_drop (f : List Byte) (k : Nat) : rd16 f k = rd16 (f.drop k) 0 := by
  simp [rd16, byteAt_drop]

theorem be16_rd16_of_length {d : List Byte} (h : d.length = 2) : be16 (rd16 d 0) = d := by
  have hd := be16_rd16_append_drop (Nat.le_of_eq h.symm)
  rwa [List.drop_of_length_le (Nat.le_of_eq h), List.append_nil] at hd

/-! ## The words of an instruction decode to it -/

section
variable {i : Instr} {sp : Space} {t p : List Byte}

/-- A segment line with its `LF` is read as the line without it (R74, R153). -/
theorem decodeWire_line (h : lf ∉ t) : decodeWire (t ++ [lf]) = decodeLine t := by
  simp [decodeWire, h]

theorem decodeLine_startMarker (t : List Byte) : decodeLine (startMarker ++ t) = .ok (.segStart t) := by
  simp [decodeLine, startMarker, slice]

theorem decodeLine_contMarker (t : List Byte) : decodeLine (contMarker ++ t) = .ok (.segCont t) := by
  simp [decodeLine, startMarker, contMarker, slice]

theorem decodeWire_startLine (h : lf ∉ t) : decodeWire (startLine t) = .ok (.segStart t) := by
  rw [startLine, decodeWire_line (by simpa [startMarker, lf] using h), decodeLine_startMarker]

theorem decodeWire_contLine (h : lf ∉ t) : decodeWire (contLine t) = .ok (.segCont t) := by
  rw [contLine, decodeWire_line (by simpa [contMarker, lf] using h), decodeLine_contMarker]

theorem decodeFrame_encode (trailer : U16) (h : p.length ≤ 65533) :
    decodeFrame (encode (.frame p trailer)) = .ok (.frame p trailer) := by
  have hlen : (encode (.frame p trailer)).length = p.length + 4 := Laws.EncodedLength.frame p trailer
  have hprefix : (rd16 (encode (.frame p trailer)) 0).toNat = p.length + 2 := by
    rw [encode, List.append_assoc, rd16_be16Nat _ _ (by omega)]
  have hdrop : (encode (.frame p trailer)).drop (p.length + 2) = be16 trailer :=
    List.drop_left' (by simp; omega)
  have htrailer : rd16 (encode (.frame p trailer)) (p.length + 2) = trailer := by
    rw [rd16_eq_rd16_drop, hdrop, ← List.append_nil (be16 trailer), rd16_be16]
  have hpayload : slice (encode (.frame p trailer)) 2 (p.length + 2) = p := by
    rw [slice, encode, List.append_assoc, List.drop_left' (be16Nat_length _), Nat.add_sub_cancel,
      List.take_left' rfl]
  simp [decodeFrame, hlen, hprefix, htrailer, hpayload]

/-- A length that its field can hold is the number the field holds. -/
theorem length_mod_of_wf {b : List Byte} (h : b.length ≤ 65535) : b.length % 65536 = b.length :=
  Nat.mod_eq_of_lt (Nat.lt_succ_of_le h)

theorem decode_encode (hwf : i.wf = true) (hs : i.space = some .command) : decode (encode i) = .ok i := by
  cases i with
  | crc16 pad data =>
    have hlen : data.length % 65536 = data.length := length_mod_of_wf (by simpa [Instr.wf] using hwf)
    cases pad <;> simp [encode, decode, decodeCrc16, be16Nat, be16_eq, hlen]
  | frsend p =>
    have hlen : p.length % 65536 = p.length := length_mod_of_wf (by simpa [Instr.wf] using hwf)
    simp [encode, decode, decodeFrsend, be16Nat, be16_eq, hlen]
  | frrecv => rfl
  | hdrbld op group id blen => exact decode_encode_hdrbld op group id blen
  | hdrprs eop egroup eid r =>
    have hlen : r.length % 65536 = r.length := length_mod_of_wf (by simpa [Instr.wf] using hwf)
    simp [encode, decode, decodeHdrprs, be16Nat, be16_eq, hlen]
  | reserved00 rest => rfl
  | reservedHi opc rest =>
    have hopc : 6 ≤ opc.toNat := by simpa [Instr.wf] using hwf
    have hne (c : Byte) (hc : c.toNat < 6) : opc ≠ c := by rintro rfl; omega
    simp [encode, decode, hne]
  | _ => cases hs

theorem decodeHeader_encode (hs : i.space = some .header) : decodeHeader (encode i) = .ok i := by
  have hread : rd16 [0#8, 0#8] 0 = 0#16 := rfl
  have hwrite : rd16 [0#8, 1#8] 0 = 1#16 := rfl
  cases i with
  | nmpRead | nmpReadRsp => simp [encode, hdr, be16_eq, decodeHeader, hread]
  | nmpWrite | nmpWriteRsp => simp [encode, hdr, be16_eq, decodeHeader, hwrite]
  | _ => cases hs

end

/-- Settles O2, space by space. -/
theorem decodeOfEncode : Obligations.DecodeOfEncode := by
  intro i sp hwf hs
  cases sp with
  | command => exact decode_encode hwf hs
  | header => exact decodeHeader_encode hs
  | wire =>
    cases i with
    | segStart text => exact decodeWire_startLine (by simpa [Instr.wf, lf] using hwf)
    | segCont text => exact decodeWire_contLine (by simpa [Instr.wf, lf] using hwf)
    | _ => cases hs
  | frame =>
    cases i with
    | frame p trailer => exact decodeFrame_encode trailer (by simpa [Instr.wf] using hwf)
    | _ => cases hs

/-! ## What decodes is the words of a well-formed instruction -/

/-- `w` is the words of `i`, which is well-formed and belongs to `sp`. -/
def WordsIn (sp : Space) (w : List Byte) (i : Instr) : Prop :=
  encode i = w ∧ i.wf = true ∧ i.space = some sp

section
variable {i : Instr} {w : List Byte}

/-- A `PB` without reserved bits is its pad flag (R63). -/
theorem padByte_eq (pb : Byte) (h : pb &&& 0xFE = 0) : (if pb.getLsbD 0 then 0x01 else 0x00) = pb := by
  revert pb
  decide

theorem decodeCrc16_words (h : decodeCrc16 w = .ok i) : WordsIn .command (0x01 :: w) i := by
  match w with
  | [] | [_] | [_, _] => cases h
  | pb :: n1 :: n0 :: data =>
    obtain ⟨hpb, h⟩ := of_guarded_eq_ok h
    obtain ⟨hlen, h⟩ := of_guarded_eq_ok h
    cases h
    rw [not_not] at hpb hlen
    refine ⟨?_, by simp [Instr.wf, hlen, toNat_rd16_le], rfl⟩
    rw [encode, padByte_eq pb hpb, be16Nat_of_eq_rd16 hlen]
    rfl

theorem decodeFrsend_words (h : decodeFrsend w = .ok i) : WordsIn .command (0x02 :: w) i := by
  match w with
  | [] | [_] => cases h
  | n1 :: n0 :: payload =>
    obtain ⟨hlen, h⟩ := of_guarded_eq_ok h
    cases h
    rw [not_not] at hlen
    refine ⟨?_, by simp [Instr.wf, hlen, toNat_rd16_le], rfl⟩
    rw [encode, be16Nat_of_eq_rd16 hlen]
    rfl

theorem decodeFrrecv_words (h : decodeFrrecv w = .ok i) : WordsIn .command (0x03 :: w) i := by
  match w with
  | [] => cases h; exact ⟨rfl, rfl, rfl⟩
  | _ :: _ => cases h

theorem decodeHdrbld_words (h : decodeHdrbld w = .ok i) : WordsIn .command (0x04 :: w) i := by
  unfold decodeHdrbld at h
  split at h
  · cases h
    refine ⟨?_, rfl, rfl⟩
    rw [encode, be16_rd16, be16_rd16]
    rfl
  · cases h

theorem decodeHdrprs_words (h : decodeHdrprs w = .ok i) : WordsIn .command (0x05 :: w) i := by
  unfold decodeHdrprs at h
  split at h
  · obtain ⟨hlen, h⟩ := of_guarded_eq_ok h
    cases h
    rw [not_not] at hlen
    refine ⟨?_, by simp [Instr.wf, hlen, toNat_rd16_le], rfl⟩
    rw [encode, be16_rd16, be16Nat_of_eq_rd16 hlen]
    rfl
  · cases h

/-- An `OPC` that is not one of the six assigned or reserved below 0x06 is of the upper reserved range. -/
theorem decode_words (h : decode w = .ok i) : WordsIn .command w i := by
  cases w with
  | nil => cases h
  | cons opc operands =>
    rw [decode] at h
    split_ifs at h with h0 h1 h2 h3 h4 h5
    · cases h; exact ⟨by rw [encode, h0], rfl, rfl⟩
    · subst h1; exact decodeCrc16_words h
    · subst h2; exact decodeFrsend_words h
    · subst h3; exact decodeFrrecv_words h
    · subst h4; exact decodeHdrbld_words h
    · subst h5; exact decodeHdrprs_words h
    · cases h
      have hhigh : 0x06 ≤ opc.toNat := by bv_omega
      exact ⟨rfl, decide_eq_true hhigh, rfl⟩

/-- A line is its marker and its text. -/
theorem marker_append_drop {l marker : List Byte} (h : slice l 0 2 = marker) : marker ++ l.drop 2 = l := by
  rw [← h]
  exact List.take_append_drop 2 l

theorem decodeWire_words (h : decodeWire w = .ok i) : WordsIn .wire w i := by
  unfold decodeWire at h
  split at h
  case isFalse => cases h
  case isTrue hend =>
    obtain ⟨hlast, hlf⟩ := hend
    have hw : w.dropLast ++ [lf] = w := List.dropLast_append_getLast? lf hlast
    have htext : (!(w.dropLast.drop 2).contains 0x0A) = true := by
      simpa [lf] using fun hmem => hlf (List.mem_of_mem_drop hmem)
    rcases decodeLine_ok _ i h with ⟨hmark, rfl⟩ | ⟨hmark, rfl⟩ <;>
      exact ⟨by rw [encode, marker_append_drop hmark, hw], htext, rfl⟩

theorem decodeFrame_words (h : decodeFrame w = .ok i) : WordsIn .frame w i := by
  obtain ⟨hlen, h⟩ := of_guarded_eq_ok h
  obtain ⟨hprefix, h⟩ := of_guarded_eq_ok h
  cases h
  rw [not_not] at hprefix
  have hle := toNat_rd16_le w 0
  have hpayload : (slice w 2 (w.length - 2)).length = w.length - 4 := by
    rw [slice, List.length_take, List.length_drop]
    omega
  refine ⟨?_, by simp only [Instr.wf, hpayload, decide_eq_true_eq]; omega, rfl⟩
  have hhead : be16Nat (w.length - 4 + 2) = be16 (rd16 w 0) := by
    rw [← be16Nat_toNat, hprefix]
    congr 1
    omega
  have htail : be16 (rd16 w (w.length - 2)) = (w.drop 2).drop (w.length - 2 - 2) := by
    rw [rd16_eq_rd16_drop, be16_rd16_of_length (by rw [List.length_drop]; omega), List.drop_drop]
    congr 1
    omega
  rw [encode, hpayload, hhead, htail, slice, List.append_assoc, List.take_append_drop,
    be16_rd16_append_drop (by omega)]

/-- A kind of header is its `op`, `group` and `id`; the other bytes are its operands (R75, R76). -/
theorem hdr_of_bytes {group : U16} {g1 g0 : Byte} (op flags l1 l0 sq id : Byte) (h : rd16 [g1, g0] 0 = group) :
    hdr op flags (rd16 [l1, l0] 0) group sq id = [op, flags, l1, l0, g1, g0, sq, id] := by
  rw [← h, hdr, be16_rd16, be16_rd16]
  rfl

theorem decodeHeader_words (h : decodeHeader w = .ok i) : WordsIn .header w i := by
  unfold decodeHeader at h
  split at h
  case h_2 => cases h
  case h_1 op flags l1 l0 g1 g0 sq id =>
    simp only at h
    split_ifs at h with hread hflags hrsp hwrite hflags hwrsp <;> cases h
    · obtain ⟨rfl, hg, rfl⟩ := hread
      subst hflags
      exact ⟨hdr_of_bytes _ _ _ _ _ _ hg, rfl, rfl⟩
    · obtain ⟨rfl, hg, rfl⟩ := hrsp
      exact ⟨hdr_of_bytes _ _ _ _ _ _ hg, rfl, rfl⟩
    · obtain ⟨rfl, hg, rfl⟩ := hwrite
      subst hflags
      exact ⟨hdr_of_bytes _ _ _ _ _ _ hg, rfl, rfl⟩
    · obtain ⟨rfl, hg, rfl⟩ := hwrsp
      exact ⟨hdr_of_bytes _ _ _ _ _ _ hg, rfl, rfl⟩

end

/-- Settles O3, decoder by decoder. -/
theorem encodeOfDecode : Obligations.EncodeOfDecode := by
  intro sp w i h
  cases sp with
  | command => exact decode_words h
  | wire => exact decodeWire_words h
  | frame => exact decodeFrame_words h
  | header => exact decodeHeader_words h

/-- Settles O1, by evaluating the decoders on the eleven words. -/
theorem specWordsDecode : Obligations.SpecWordsDecode := by
  unfold Obligations.SpecWordsDecode
  decide

/-! ## The well-formed descriptors decode (R60, R63 to R67) -/

section
variable {d operands : List Byte}

theorem decodeCrc16_isOk (hpb : byteAt operands 0 &&& 0xFE = 0)
    (hlen : operands.length + 1 = descriptorLength (0x01 :: operands)) : ∃ i, decodeCrc16 operands = .ok i := by
  match operands with
  | [] | [_] | [_, _] => simp [descriptorLength, byteAt] at hlen; omega
  | pb :: n1 :: n0 :: data =>
    rw [descriptorLength_crc16] at hlen
    have hdata : data.length = (rd16 [n1, n0] 0).toNat := by simpa using hlen
    exact ⟨_, (if_neg (not_not.mpr hpb)).trans (if_neg (not_not.mpr hdata))⟩

theorem decodeFrsend_isOk (hlen : operands.length + 1 = descriptorLength (0x02 :: operands)) :
    ∃ i, decodeFrsend operands = .ok i := by
  match operands with
  | [] | [_] => simp [descriptorLength, byteAt] at hlen; omega
  | n1 :: n0 :: payload =>
    rw [descriptorLength_frsend] at hlen
    have hpayload : payload.length = (rd16 [n1, n0] 0).toNat := by simpa using hlen
    exact ⟨_, if_neg (not_not.mpr hpayload)⟩

theorem decodeFrrecv_isOk (hlen : operands.length + 1 = descriptorLength (0x03 :: operands)) :
    ∃ i, decodeFrrecv operands = .ok i := by
  match operands with
  | [] => exact ⟨_, rfl⟩
  | _ :: _ => cases hlen

theorem decodeHdrbld_isOk (hlen : operands.length + 1 = descriptorLength (0x04 :: operands)) :
    ∃ i, decodeHdrbld operands = .ok i := by
  match operands, hlen with
  | [op, g1, g0, id, l1, l0], _ => exact ⟨_, rfl⟩

theorem decodeHdrprs_isOk (hlen : operands.length + 1 = descriptorLength (0x05 :: operands)) :
    ∃ i, decodeHdrprs operands = .ok i := by
  match operands with
  | [] | [_] | [_, _] | [_, _, _] | [_, _, _, _] | [_, _, _, _, _] =>
    simp [descriptorLength, byteAt] at hlen; omega
  | eop :: g1 :: g0 :: eid :: l1 :: l0 :: resp =>
    rw [descriptorLength_hdrprs] at hlen
    have hresp : resp.length = (rd16 [l1, l0] 0).toNat := by simpa using hlen
    exact ⟨_, if_neg (not_not.mpr hresp)⟩

theorem decode_isOk_of_not_malformed (h : ¬ Malformed d) : ∃ i, decode d = .ok i := by
  simp only [Malformed, not_or, not_and, not_not, not_le] at h
  obtain ⟨hnil, hzero, hlow, hpb, hlen⟩ := h
  cases d with
  | nil => exact absurd rfl hnil
  | cons opc operands =>
    rw [decode]
    split_ifs with h0 h1 h2 h3 h4 h5
    · exact ⟨_, rfl⟩
    · subst h1; exact decodeCrc16_isOk (hpb rfl) hlen
    · subst h2; exact decodeFrsend_isOk hlen
    · subst h3; exact decodeFrrecv_isOk hlen
    · subst h4; exact decodeHdrbld_isOk hlen
    · subst h5; exact decodeHdrprs_isOk hlen
    · exact ⟨_, rfl⟩

end

/-- Settles O4: a well-formed descriptor decodes, and a descriptor that decodes to a reserved row is
malformed. -/
theorem commandsAreTheWellFormed : Obligations.CommandsAreTheWellFormed := by
  intro d
  constructor
  · intro hwell
    obtain ⟨i, hi⟩ := decode_isOk_of_not_malformed hwell
    obtain ⟨hwords, hwf, hspace⟩ := decode_words hi
    cases i with
    | crc16 pad data => exact .inl ⟨pad, data, hi⟩
    | frsend p => exact .inr (.inl ⟨p, hi⟩)
    | frrecv => exact .inr (.inr (.inl hi))
    | hdrbld op g id n => exact .inr (.inr (.inr (.inl ⟨op, g, id, n, hi⟩)))
    | hdrprs op g id r => exact .inr (.inr (.inr (.inr ⟨op, g, id, r, hi⟩)))
    | reserved00 rest => exact absurd (.inr (.inl (congrArg (byteAt · 0) hwords.symm))) hwell
    | reservedHi opc rest =>
      have hhigh : 6 ≤ (byteAt d 0).toNat := hwords ▸ of_decide_eq_true hwf
      exact absurd (.inr (.inr (.inl hhigh))) hwell
    | _ => cases hspace
  · have hcommand {i : Instr} (hi : decode d = .ok i) (h0 : ∀ tail, i ≠ .reserved00 tail)
        (hHi : ∀ opc tail, i ≠ .reservedHi opc tail) : ¬ Malformed d := by
      rcases decode_ok_cases hi with hwell | ⟨tail, e⟩ | ⟨opc, tail, e⟩
      · exact hwell
      · exact absurd e (h0 tail)
      · exact absurd e (hHi opc tail)
    rintro (⟨_, _, hi⟩ | ⟨_, hi⟩ | hi | ⟨_, _, _, _, hi⟩ | ⟨_, _, _, _, hi⟩) <;>
      exact hcommand hi nofun nofun

end Sys2Proof.Machine
end

section
/-! PROOFS. The strict base64 decoder (R156): what it gives for each kind of group, that it inverts the
encoder, and which texts it accepts. -/

namespace Sys2Proof.Machine

/-! ## One group -/

section
variable {g0 g1 g2 g3 c : Byte} {v0 v1 v2 v3 v : Nat} {last : Bool} {d t : List Byte}

theorem ne_pad_of_b64Val (h : b64Val c = some v) : c ≠ padChar := by
  rintro rfl
  cases h

theorem b64decGroup_pad_pad (h0 : b64Val g0 = some v0) (h1 : b64Val g1 = some v1) :
    b64decGroup g0 g1 padChar padChar true = some [octet (quadValue v0 v1 0 0) 2] := by
  simp [b64decGroup, h0, h1]

theorem b64decGroup_pad (h0 : b64Val g0 = some v0) (h1 : b64Val g1 = some v1) (h2 : b64Val g2 = some v2) :
    b64decGroup g0 g1 g2 padChar true =
      some [octet (quadValue v0 v1 v2 0) 2, octet (quadValue v0 v1 v2 0) 1] := by
  simp [b64decGroup, h0, h1, h2, ne_pad_of_b64Val h2]

theorem b64decGroup_full (h0 : b64Val g0 = some v0) (h1 : b64Val g1 = some v1) (h2 : b64Val g2 = some v2)
    (h3 : b64Val g3 = some v3) (last : Bool) : b64decGroup g0 g1 g2 g3 last =
      some [octet (quadValue v0 v1 v2 v3) 2, octet (quadValue v0 v1 v2 v3) 1,
        octet (quadValue v0 v1 v2 v3) 0] := by
  simp [b64decGroup, h0, h1, h2, h3, ne_pad_of_b64Val h3]

/-- A character of the alphabet (R73). -/
def InAlphabet (c : Byte) : Prop := ∃ v, b64Val c = some v

theorem inAlphabet_ne_pad (h : InAlphabet c) : c ≠ padChar := ne_pad_of_b64Val h.choose_spec

/-- The groups the decoder accepts, and how many bytes each kind gives. -/
theorem b64decGroup_cases (h : b64decGroup g0 g1 g2 g3 last = some d) :
    InAlphabet g0 ∧ InAlphabet g1 ∧ ((InAlphabet g2 ∧ InAlphabet g3 ∧ d.length = 3) ∨
      (last = true ∧ g3 = padChar ∧ ((g2 = padChar ∧ d.length = 1) ∨ (InAlphabet g2 ∧ d.length = 2)))) := by
  simp only [b64decGroup, Option.bind_eq_bind, Option.bind_eq_some_iff] at h
  obtain ⟨v0, h0, v1, h1, h⟩ := h
  refine ⟨⟨v0, h0⟩, ⟨v1, h1⟩, ?_⟩
  split_ifs at h with htwo hone
  · obtain ⟨h2, h3, hlast⟩ := htwo
    cases h
    exact .inr ⟨hlast, h3, .inl ⟨h2, rfl⟩⟩
  · obtain ⟨-, h3, hlast⟩ := hone
    obtain ⟨v2, h2, h⟩ := Option.bind_eq_some_iff.mp h
    cases h
    exact .inr ⟨hlast, h3, .inr ⟨⟨v2, h2⟩, rfl⟩⟩
  · obtain ⟨v2, h2, h⟩ := Option.bind_eq_some_iff.mp h
    obtain ⟨v3, h3, h⟩ := Option.bind_eq_some_iff.mp h
    cases h
    exact .inl ⟨⟨v2, h2⟩, ⟨v3, h3⟩, rfl⟩

/-! ## The groups in order -/

theorem b64decGroups_cons (rest : List Byte) (h : b64decGroup g0 g1 g2 g3 rest.isEmpty = some d) :
    b64decGroups (g0 :: g1 :: g2 :: g3 :: rest) = (b64decGroups rest).map (d ++ ·) := by
  rw [b64decGroups, h]
  cases b64decGroups rest <;> rfl

theorem b64decGroups_last (h : b64decGroup g0 g1 g2 g3 true = some d) :
    b64decGroups [g0, g1, g2, g3] = some d := by
  rw [b64decGroups_cons [] h, b64decGroups, Option.map_some, List.append_nil]

/-- A text of groups that decode is a text of whole groups. -/
theorem b64decGroups_cons_eq_some {rest : List Byte} (h : b64decGroups (g0 :: g1 :: g2 :: g3 :: rest) = some d) :
    ∃ d0 ds, b64decGroup g0 g1 g2 g3 rest.isEmpty = some d0 ∧ b64decGroups rest = some ds ∧ d = d0 ++ ds := by
  simp only [b64decGroups, Option.bind_eq_bind, Option.bind_eq_some_iff] at h
  obtain ⟨d0, hd0, ds, hds, h⟩ := h
  exact ⟨d0, ds, hd0, hds, (Option.some.inj h).symm⟩

/-! ## The round trip -/

/-- A 24-bit value is that of its sextets. -/
theorem quadValue_sextet (h : v < 2 ^ 24) :
    quadValue (sextet v 3) (sextet v 2) (sextet v 1) (sextet v 0) = v := by
  simp only [quadValue, sextet]
  omega

theorem quadValue_sextet_two (b0 b1 : Byte) : quadValue (sextet (groupValue b0 b1 0) 3)
    (sextet (groupValue b0 b1 0) 2) (sextet (groupValue b0 b1 0) 1) 0 = groupValue b0 b1 0 := by
  have := groupValue_lt b0 b1 0
  simp only [groupValue_two, quadValue, sextet] at *
  omega

theorem quadValue_sextet_one (b0 : Byte) : quadValue (sextet (groupValue b0 0 0) 3)
    (sextet (groupValue b0 0 0) 2) 0 0 = groupValue b0 0 0 := by
  have := groupValue_lt b0 0 0
  simp only [groupValue_one, quadValue, sextet] at *
  omega

theorem octet_groupValue (b0 b1 b2 : Byte) : octet (groupValue b0 b1 b2) 2 = b0 ∧
    octet (groupValue b0 b1 b2) 1 = b1 ∧ octet (groupValue b0 b1 b2) 0 = b2 := by
  refine ⟨?_, ?_, ?_⟩ <;>
  · apply BitVec.eq_of_toNat_eq
    simp only [octet, groupValue, BitVec.toNat_ofNat]
    omega

theorem b64Val_b64Char_sextet_eq (v k : Nat) : b64Val (b64Char (sextet v k)) = some (sextet v k) :=
  b64Val_b64Char _ (sextet_lt v k)

theorem b64decGroups_b64enc (b : List Byte) : b64decGroups (b64enc b) = some b := by
  have hval := b64Val_b64Char_sextet_eq
  fun_induction b64enc b with
  | case1 => rfl
  | case2 b0 v =>
    rw [b64decGroups_last (b64decGroup_pad_pad (hval v 3) (hval v 2)), quadValue_sextet_one]
    simp only [octet_groupValue]
  | case3 b0 b1 v =>
    rw [b64decGroups_last (b64decGroup_pad (hval v 3) (hval v 2) (hval v 1)), quadValue_sextet_two]
    simp only [octet_groupValue]
  | case4 b0 b1 b2 rest v ih =>
    rw [b64decGroups_cons _ (b64decGroup_full (hval v 3) (hval v 2) (hval v 1) (hval v 0) _),
      quadValue_sextet (groupValue_lt b0 b1 b2), ih]
    simp [octet_groupValue]

end

/-- Settles O31, by induction on the groups. -/
theorem base64RoundTrip : Obligations.Base64RoundTrip := by
  intro b
  rw [b64dec, if_neg (not_not.mpr (b64enc_length_mod_four b)), b64decGroups_b64enc]

/-! ## The texts it accepts -/

/-- Whole groups, of alphabet characters but for `=` in the last two places, with nothing but `=` after a
`=` (R156). -/
def StrictText (t : List Byte) : Prop :=
  t.length % 4 = 0 ∧
  (∀ i c, t[i]? = some c → InAlphabet c ∨ (c = padChar ∧ t.length ≤ i + 2)) ∧
  ∀ i j, t[i]? = some padChar → i ≤ j → j < t.length → t[j]? = some padChar

section
variable {g0 g1 g2 g3 : Byte} {d t rest : List Byte}

theorem strictText_nil : StrictText [] := ⟨rfl, nofun, nofun⟩

/-- The first group of a text is full, with a strict text after it, or it is the last and ends in `=`. -/
theorem strictText_cons_cases (h : StrictText (g0 :: g1 :: g2 :: g3 :: rest)) :
    InAlphabet g0 ∧ InAlphabet g1 ∧ ((InAlphabet g2 ∧ InAlphabet g3 ∧ StrictText rest) ∨
      (rest = [] ∧ g3 = padChar ∧ (g2 = padChar ∨ InAlphabet g2))) := by
  obtain ⟨hlen, hchar, hpad⟩ := h
  simp only [List.length_cons] at hlen hchar hpad
  have h0 : InAlphabet g0 := (hchar 0 g0 rfl).resolve_right (by omega)
  have h1 : InAlphabet g1 := (hchar 1 g1 rfl).resolve_right (by omega)
  have hrest : StrictText rest := by
    refine ⟨by omega, fun i c hc => ?_, fun i j hi hij hj => hpad (i + 4) (j + 4) hi (by omega) (by omega)⟩
    exact (hchar (i + 4) c hc).imp_right fun ⟨hc, hi⟩ => ⟨hc, by omega⟩
  refine ⟨h0, h1, ?_⟩
  rcases hchar 3 g3 rfl with h3 | ⟨rfl, hend⟩
  · rcases hchar 2 g2 rfl with h2 | ⟨rfl, -⟩
    · exact .inl ⟨h2, h3, hrest⟩
    · cases hpad 2 3 rfl (by omega) (by omega)
      exact absurd rfl (inAlphabet_ne_pad h3)
  · refine .inr ?_
    by_cases hnil : rest = []
    · exact ⟨hnil, rfl, (hchar 2 g2 rfl).symm.imp_left And.left⟩
    · have := List.length_pos_iff.mpr hnil
      omega

theorem strictText_cons (h0 : InAlphabet g0) (h1 : InAlphabet g1) (h2 : InAlphabet g2) (h3 : InAlphabet g3)
    (h : StrictText rest) : StrictText (g0 :: g1 :: g2 :: g3 :: rest) := by
  obtain ⟨hlen, hchar, hpad⟩ := h
  refine ⟨by simp only [List.length_cons]; omega, ?_, ?_⟩
  · rintro (_ | _ | _ | _ | i) c hc
    case succ.succ.succ.succ =>
      exact (hchar i c hc).imp_right fun ⟨hc, hi⟩ => ⟨hc, by simp only [List.length_cons]; omega⟩
    all_goals
      cases hc
      exact .inl ‹_›
  · rintro (_ | _ | _ | _ | i) j hi hij hj
    case succ.succ.succ.succ =>
      obtain ⟨k, rfl⟩ := Nat.exists_eq_add_of_le' (Nat.le_trans (Nat.le_add_left 4 i) hij)
      exact hpad i k hi (by omega) (by simp only [List.length_cons] at hj; omega)
    all_goals
      cases hi
      exact absurd rfl (inAlphabet_ne_pad ‹_›)

theorem strictText_last (h0 : InAlphabet g0) (h1 : InAlphabet g1) (h2 : g2 = padChar ∨ InAlphabet g2) :
    StrictText [g0, g1, g2, padChar] := by
  refine ⟨by simp, ?_, ?_⟩
  · rintro (_ | _ | _ | _ | i) c hc <;> cases hc
    · exact .inl h0
    · exact .inl h1
    · exact h2.symm.imp_right fun h => ⟨h, by simp⟩
    · exact .inr ⟨rfl, by simp⟩
  · rintro (_ | _ | i) j hi hij hj
    · cases hi; exact absurd rfl (inAlphabet_ne_pad h0)
    · cases hi; exact absurd rfl (inAlphabet_ne_pad h1)
    · obtain rfl | rfl : j = 2 ∨ j = 3 := by simp only [List.length_cons, List.length_nil] at hj; omega
      · obtain rfl : i = 0 := by omega
        exact hi
      · rfl

/-- What the decoder accepts is strict, and its length is that of the bytes it gives. -/
theorem strictText_of_b64decGroups (h : b64decGroups t = some d) :
    StrictText t ∧ t.length = 4 * ceilDiv d.length 3 := by
  induction t using b64decGroups.induct generalizing d with
  | case1 => cases h; exact ⟨strictText_nil, rfl⟩
  | case2 g0 g1 g2 g3 rest ih =>
    obtain ⟨d0, ds, hgroup, hrest, rfl⟩ := b64decGroups_cons_eq_some h
    obtain ⟨hstrict, hlen⟩ := ih hrest
    obtain ⟨h0, h1, ⟨h2, h3, hd⟩ | ⟨hlast, rfl, h2⟩⟩ := b64decGroup_cases hgroup
    · refine ⟨strictText_cons h0 h1 h2 h3 hstrict, ?_⟩
      simp only [List.length_cons, List.length_append, hlen, hd, ceilDiv]
      omega
    · obtain rfl := List.isEmpty_iff.mp hlast
      cases hrest
      refine ⟨strictText_last h0 h1 (h2.imp And.left And.left), ?_⟩
      rcases h2 with ⟨-, hd⟩ | ⟨-, hd⟩ <;> simp [hd, ceilDiv]
  | case3 t hnil hcons => simp [b64decGroups] at h

theorem b64decGroups_isSome (h : StrictText t) : ∃ d, b64decGroups t = some d := by
  induction t using b64decGroups.induct with
  | case1 => exact ⟨_, rfl⟩
  | case2 g0 g1 g2 g3 rest ih =>
    obtain ⟨⟨v0, h0⟩, ⟨v1, h1⟩, ⟨⟨v2, h2⟩, ⟨v3, h3⟩, hrest⟩ | ⟨rfl, rfl, rfl | ⟨v2, h2⟩⟩⟩ :=
      strictText_cons_cases h
    · obtain ⟨ds, hds⟩ := ih hrest
      exact ⟨_, by rw [b64decGroups_cons _ (b64decGroup_full h0 h1 h2 h3 _), hds]; rfl⟩
    · exact ⟨_, b64decGroups_last (b64decGroup_pad_pad h0 h1)⟩
    · exact ⟨_, b64decGroups_last (b64decGroup_pad h0 h1 h2)⟩
  | case3 t hnil hcons =>
    obtain ⟨hlen, -⟩ := h
    match t with
    | [] => exact absurd rfl hnil
    | [_] | [_, _] | [_, _, _] => simp at hlen
    | g0 :: g1 :: g2 :: g3 :: rest => exact absurd rfl (hcons g0 g1 g2 g3 rest)

/-- The length test only refuses what the groups refuse. -/
theorem b64dec_eq_some_iff : b64dec t = some d ↔ b64decGroups t = some d := by
  rw [b64dec]
  split
  case isFalse => rfl
  case isTrue hlen =>
    refine ⟨nofun, fun h => ?_⟩
    obtain ⟨⟨hmod, -⟩, -⟩ := strictText_of_b64decGroups h
    exact absurd hmod hlen

end

/-- Settles O32, by induction on the groups; the octets are those of each kind of group. -/
theorem base64IsStrict : Obligations.Base64IsStrict := by
  intro t
  simp only [b64dec_eq_some_iff]
  refine ⟨⟨fun ⟨d, hd⟩ => (strictText_of_b64decGroups hd).1, b64decGroups_isSome⟩,
    fun d hd => (strictText_of_b64decGroups hd).2, rfl,
    fun g0 g1 v0 v1 h0 h1 => ⟨?_, fun g2 v2 h2 => ⟨?_, fun g3 v3 h3 d hd => ?_⟩⟩⟩
  · simpa [octet, quadValue, padChar] using b64decGroups_last (b64decGroup_pad_pad h0 h1)
  · simpa [octet, quadValue, padChar] using b64decGroups_last (b64decGroup_pad h0 h1 h2)
  · rw [b64decGroups_cons t (b64decGroup_full h0 h1 h2 h3 _), hd]
    simp [octet, quadValue]

/-! ## The lines of a frame (R127, R132) -/

/-- Piece `k` of a text is the text of 93 bytes, or of what remains. -/
theorem b64enc_piece (f : List Byte) (k : Nat) (h : 93 * k ≤ f.length) :
    slice (b64enc f) (124 * k) (124 * k + 124) = b64enc (slice f (93 * k) (93 * k + 93)) := by
  have hdrop : (b64enc f).drop (124 * k) = b64enc (f.drop (93 * k)) := by
    have := b64enc_drop f (31 * k) (by omega)
    rwa [← Nat.mul_assoc, ← Nat.mul_assoc, eq_comm] at this
  rw [slice, slice, Nat.add_sub_cancel_left, Nat.add_sub_cancel_left, hdrop]
  by_cases hlen : 93 ≤ (f.drop (93 * k)).length
  · exact (b64enc_take _ 31 hlen).symm
  · rw [List.take_of_length_le, List.take_of_length_le (by omega)]
    rw [b64enc_length]
    omega

/-- Settles O35: a line that is not the last is full, and its text is that of 93 bytes. -/
theorem frameSizing : Obligations.FrameSizing := by
  intro p _
  have hm : (frameLines (frameBytes p)).length = ceilDiv (4 * ceilDiv (p.length + 4) 3) 124 := by
    rw [frameLines_length, b64enc_length, frameBytes_length]
    rfl
  refine ⟨hm, ?_, fun k hk => ?_⟩
  · rw [frameLines_flatten_length, hm, frameBytes_length]
    rfl
  · have hlen : 93 * k + 93 ≤ (frameBytes p).length := by
      simp only [ceilDiv, frameBytes_length] at hk ⊢
      omega
    have htext : (slice (b64enc (frameBytes p)) (124 * k) (124 * k + 124)).length = 124 := by
      rw [piece_length, b64enc_length]
      omega
    refine ⟨_, frameLines_get _ k (by omega), ?_, ?_⟩
    · split <;> simp [startMarker, contMarker, htext]
    · have hbody : ∀ marker text : List Byte, marker.length = 2 → text.length = 124 →
          slice (marker ++ text ++ [lf]) 2 126 = text := by
        intro marker text h2 h124
        rw [slice, List.append_assoc, List.drop_left' h2, List.take_left' h124]
      rw [hbody _ _ (by split <;> rfl) htext, b64enc_piece _ k (by omega)]
      exact base64RoundTrip _

end Sys2Proof.Machine
end

section
/-! PROOFS. The checksum's command and laws (40_crc16.md), and the header rows (43_nmp_header.md). -/

namespace Sys2Proof.Machine

/-! ## The command (R104) -/

theorem crcin_of_length (b : List Byte) (pad : Bool) :
    crcin b b.length pad = b ++ if pad then [0x00, 0x00] else [] := by
  rw [crcin, List.take_length]
  cases pad <;> rfl

/-- Settles O19: the bytes consumed are the data and the pad. -/
theorem crc16Answers : Obligations.Crc16Answers := by
  intro pad data s
  rw [← crcin_of_length]
  rfl

/-! ## The laws (R106) -/

section
variable {b : List Byte} {k n : Nat}

theorem crcin_zeros_append (pad : Bool) :
    crcin (zeros k ++ b) (k + n) pad = zeros k ++ crcin b n pad := by
  have htake : (zeros k ++ b).take (k + n) = zeros k ++ b.take n := by
    rw [List.take_append, zeros_length, Nat.add_sub_cancel_left, List.take_of_length_le (by simp)]
  rw [crcin, crcin, htake, List.append_assoc]

/-- Leading zeros do not change the checksum (R106, law 3). -/
theorem crc16_zeros_append (pad : Bool) : crc16 (zeros k ++ b) (k + n) pad = crc16 b n pad := by
  rw [crc16, crcin_zeros_append, List.foldl_append, foldl_crcbyte_zeros]
  rfl

theorem crc16_zeros (n : Nat) (pad : Bool) : crc16 (zeros n) n pad = 0 := by
  rw [crc16_of_length _ _ _ (zeros_length n), foldl_crcbyte_zeros, foldl_crcbyte_zeros]
  rfl

theorem crcbyte_crcInit (x : Byte) : crcbyte crcInit x = x.setWidth 16 := by
  apply BitVec.eq_of_toNat_eq
  rw [crcbyte_toNat_of_lt crcInit x (by decide), BitVec.toNat_setWidth, Nat.mod_eq_of_lt (by omega)]
  exact Nat.zero_add _

theorem xorBytes_zeros (n : Nat) : xorBytes (zeros n) (zeros n) = zeros n := by
  simp [xorBytes, zeros]

/-- The pad keeps the sum of two registers. -/
theorem foldl_crcbyte_zeros_xor (n : Nat) (c d : U16) :
    (zeros n).foldl crcbyte (c ^^^ d) = (zeros n).foldl crcbyte c ^^^ (zeros n).foldl crcbyte d := by
  rw [← foldl_crcbyte_xor (zeros n) (zeros n) c d rfl, xorBytes_zeros]

/-- The checksum is linear over bytewise `xor` (R106, law 5). -/
theorem crc16_xorBytes (a b : List Byte) (pad : Bool) (h : a.length = b.length) :
    crc16 (xorBytes a b) a.length pad = crc16 a a.length pad ^^^ crc16 b b.length pad := by
  have hlen : (xorBytes a b).length = a.length := by rw [xorBytes, List.length_zipWith, h, Nat.min_self]
  have hsum := foldl_crcbyte_xor a b crcInit crcInit h
  rw [crc16_of_length _ _ pad hlen, crc16_of_length a _ pad rfl, crc16_of_length b _ pad rfl,
    ← foldl_crcbyte_zeros_xor, ← hsum]
  rfl

/-- The pad is two zero bytes (R106, law 6). -/
theorem crc16_pad (h : n ≤ b.length) :
    crc16 b n true = crc16 (b.take n ++ [0x00, 0x00]) (n + 2) false := by
  have hlen : (b.take n ++ [0x00, 0x00]).length = n + 2 := by simp [h]
  rw [crc16_of_length _ _ _ hlen]
  rfl

end

/-- Settles O22, law by law. -/
theorem crcLaws : Obligations.CrcLaws :=
  ⟨crc16_zeros, fun _ _ _ pad _ => crc16_zeros_append pad,
    fun x y => ⟨crcbyte_crcInit x, foldl_crcbyte_pair x y⟩, crc16_xorBytes, fun _ _ => crc16_pad⟩

/-! ## Bursts (R106, law 7) -/

/-- The register takes the bits of a string in order. -/
theorem foldl_crcbyte_eq_foldl_bitsOf (b : List Byte) (c : U16) :
    b.foldl crcbyte c = (bitsOf b).foldl crcbit c := by
  induction b generalizing c with
  | nil => rfl
  | cons x b ih => rw [List.foldl_cons, ih]; rfl

theorem toNat_zero_u16 : (0 : U16).toNat = 0 := rfl

theorem toNat_ne_zero_of_ne_zero {c : U16} (h : c ≠ 0) : c.toNat ≠ 0 := fun e => h (BitVec.eq_of_toNat_eq e)

/-- The polynomial has a constant term, so no zero bit clears a register that is not clear. -/
theorem crcbit_false_ne_zero (c : U16) (h : c ≠ 0) : crcbit c false ≠ 0 := by
  intro hzero
  have hstep := crcBitStep c false
  rw [hzero, toNat_zero_u16, eq_comm, Nat.xor_eq_zero_iff, Bool.toNat_false] at hstep
  have hpos := toNat_ne_zero_of_ne_zero h
  split at hstep <;> omega

theorem foldl_crcbit_false_ne_zero (n : Nat) (c : U16) (h : c ≠ 0) :
    (List.replicate n false).foldl crcbit c ≠ 0 := by
  induction n generalizing c with
  | zero => exact h
  | succ n ih => exact ih _ (crcbit_false_ne_zero c h)

theorem foldl_crcbit_false_zero (n : Nat) : (List.replicate n false).foldl crcbit 0 = 0 := by
  induction n with
  | zero => rfl
  | succ n ih => exact ih

/-- Bits that all still fit in the register stand in it as they are, so a wrong one shows. -/
theorem foldl_crcbit_ne_zero (burst : List Bool) (c : U16) (hfit : (c.toNat + 1) * 2 ^ burst.length ≤ 65536)
    (h : c ≠ 0 ∨ true ∈ burst) : burst.foldl crcbit c ≠ 0 := by
  induction burst generalizing c with
  | nil => exact h.resolve_right List.not_mem_nil
  | cons x burst ih =>
    rw [List.length_cons, Nat.pow_succ'] at hfit
    have hpow := Nat.two_pow_pos burst.length
    have hx := x.toNat_le
    have hstep := crcbit_toNat_of_lt c x (by nlinarith)
    refine ih (crcbit c x) (by rw [hstep]; nlinarith) ?_
    by_cases hwrong : c ≠ 0 ∨ x = true
    · have hpos : c.toNat ≠ 0 ∨ x.toNat = 1 :=
        hwrong.imp toNat_ne_zero_of_ne_zero (congrArg Bool.toNat)
      refine .inl fun e => ?_
      rw [e, toNat_zero_u16] at hstep
      omega
    · rw [not_or] at hwrong
      exact .inr ((List.mem_cons.mp (h.resolve_left hwrong.1)).resolve_left (Ne.symm hwrong.2))

/-- An error of at most 16 bits has a checksum that is not zero. -/
theorem crc16_burst_ne_zero {e : List Byte} {before after : Nat} {burst : List Bool}
    (hbits : bitsOf e = List.replicate before false ++ burst ++ List.replicate after false)
    (hlen : burst.length ≤ 16) (hwrong : true ∈ burst) : crc16 e e.length true ≠ 0 := by
  have hpad : bitsOf (zeros 2) = List.replicate 16 false := rfl
  have hfit : 2 ^ burst.length ≤ 2 ^ 16 := Nat.pow_le_pow_right (by decide) hlen
  rw [crc16_of_length e _ true rfl, foldl_crcbyte_eq_foldl_bitsOf, foldl_crcbyte_eq_foldl_bitsOf, hbits,
    List.foldl_append, List.foldl_append, crcInit, foldl_crcbit_false_zero]
  have hburst := foldl_crcbit_ne_zero burst 0 (by simpa using hfit) (.inr hwrong)
  exact foldl_crcbit_false_ne_zero 16 _ (foldl_crcbit_false_ne_zero after _ hburst)

/-- Settles O23: by linearity the residual is the checksum of the error. -/
theorem crcDetectsBursts : Obligations.CrcDetectsBursts := by
  intro f e before after burst hlen hzero hbits hburst hwrong
  rw [crc16_xorBytes f e true hlen.symm, hzero]
  simpa using crc16_burst_ne_zero hbits hburst hwrong

/-! ## Headers (R186, R190) -/

/-- Settles O27: the parser's first test. -/
theorem hdrprsShort : Obligations.HdrprsShort :=
  fun _ _ _ _ _ h => congrArg Host.Outcome.next (if_pos h)

/-- A header of the expected kind, with no body, matches (R188, R189). -/
theorem runParser_hdr (op flags : Byte) (len group : U16) (sq id : Byte) (s : State) :
    runParser op group id (hdr op flags len group sq id) s =
      finish stOk (hdr op flags len group sq id ++ [0x00, 0x00]) s := by
  have h := runParser_header_append op group id op flags (len.extractLsb' 8 8) (len.extractLsb' 0 8)
    (group.extractLsb' 8 8) (group.extractLsb' 0 8) sq id [] s
  rw [rd16_be16_bytes, matchStatus, if_pos ⟨rfl, rfl, rfl⟩] at h
  exact h

/-- Settles O29: a request row runs the builder, and a response row the parser with the values of its own
kind. -/
theorem headerRows : Obligations.HeaderRows := by
  intro flags len q s
  exact ⟨rfl, rfl, congrArg Host.Outcome.next (runParser_hdr ..), congrArg Host.Outcome.next (runParser_hdr ..)⟩

end Sys2Proof.Machine
end

section
/-! PROOFS. The transmit engine (41_framer_send.md): one write by the sink's answer, and the run of a whole
`FRSEND`. -/

namespace Sys2Proof.Machine

/-! ## One write (R44, R129, R130) -/

/-- The sink's next answer is `a`, after which `plan` and `n` stand for the answers to come: the next planned
one, or past the plan's end a free value (R44; log 6). -/
def NextAnswer (s : State) (a : SinkAnswer) (plan : List SinkAnswer) (n : Nat) : Prop :=
  (s.sinkPlan = a :: plan ∧ n = s.draws) ∨
  (s.sinkPlan = [] ∧ plan = [] ∧ a = Config.sinkAnswer s.draws ∧ n = s.draws + 1)

/-- The state once the wait before a byte is over and the sink has answered (R44, R129). -/
def answered (plan : List SinkAnswer) (n : Nat) (s : State) : State :=
  { s with now := (txDelay s).now, sinkPlan := plan, draws := n }

/-- The state once `b` has been accepted, before the updates that follow it (R44). -/
def accepted (b : Byte) (plan : List SinkAnswer) (n : Nat) (s : State) : State :=
  { answered plan n s with sent := s.sent ++ [b] }

section
variable {s t : State} {l pre rest : List Byte} {b : Byte} {a : SinkAnswer} {plan : List SinkAnswer} {n len : Nat}

theorem exists_nextAnswer (s : State) : ∃ a plan n, NextAnswer s a plan n := by
  rcases sinkAnswer_cases s with ⟨a, plan, h, -⟩ | ⟨h, -⟩
  · exact ⟨a, plan, _, .inl ⟨h, rfl⟩⟩
  · exact ⟨_, _, _, .inr ⟨h, rfl, rfl, rfl⟩⟩

theorem txDelay_now (s : State) :
    (txDelay s).now = if 0 < s.txi ∧ s.txj = 0 then max s.now s.txwake else s.now := by
  unfold txDelay
  split <;> rfl

theorem le_txDelay_now (s : State) : s.now ≤ (txDelay s).now := by
  rw [txDelay_now]
  split
  · exact Nat.le_max_left ..
  · exact Nat.le_refl _

theorem sinkAnswer_txDelay (h : NextAnswer s a plan n) :
    sinkAnswer (txDelay s) = (a, answered plan n s) := by
  rw [txDelay_effect s, answered]
  rcases h with ⟨h, rfl⟩ | ⟨h, rfl, rfl, rfl⟩ <;> simp [sinkAnswer, h]

theorem uartWrite_txDelay_accept (h : NextAnswer s .accept plan n) (b : Byte) :
    uartWrite b (txDelay s) = (.accept, accepted b plan n s) := by
  rw [uartWrite, sinkAnswer_txDelay h]
  rfl

theorem uartWrite_txDelay_refused (h : NextAnswer s a plan n) (ha : a ≠ .accept) (b : Byte) :
    uartWrite b (txDelay s) = (a, answered plan n s) := by
  rw [uartWrite, sinkAnswer_txDelay h]
  cases a with
  | accept => exact absurd rfl ha
  | ioerr | hold => rfl

theorem txStep_accept (hl : s.txsegs[s.txi]? = some l) (hb : l[s.txj]? = some b)
    (h : NextAnswer s .accept plan n) :
    txStep s = .next (txAccepted l.length (accepted b plan n s)) := by
  simp only [txStep, hl, hb, uartWrite_txDelay_accept h]

theorem txStep_ioerr (hl : s.txsegs[s.txi]? = some l) (hb : l[s.txj]? = some b)
    (h : NextAnswer s .ioerr plan n) : txStep s = .next (finish stIoError [] (answered plan n s)) := by
  simp only [txStep, hl, hb, uartWrite_txDelay_refused h nofun]

theorem txStep_hold (hl : s.txsegs[s.txi]? = some l) (hb : l[s.txj]? = some b)
    (h : NextAnswer s .hold plan n) : txStep s = .next (answered plan n s) := by
  simp only [txStep, hl, hb, uartWrite_txDelay_refused h nofun]

theorem txAccepted_within (h : s.txj + 1 < len) : txAccepted len s = { s with txj := s.txj + 1 } :=
  if_neg h.ne

theorem txAccepted_next (h : s.txj + 1 = len) (hi : s.txi + 1 < s.txsegs.length) : txAccepted len s =
    { s with txi := s.txi + 1, txj := 0, txwake := s.now + s.params.contDelay } :=
  (if_pos h).trans (if_pos hi)

theorem txAccepted_last (h : s.txj + 1 = len) (hi : s.txsegs.length ≤ s.txi + 1) : txAccepted len s =
    finish stOk [] { s with txi := s.txi + 1, txj := 0, txwake := s.now + s.params.contDelay } :=
  (if_pos h).trans (if_neg (Nat.not_lt.mpr hi))

/-- The updates after an accepted byte are no UART access and take no time (R47; log 4). -/
theorem txAccepted_keeps (len : Nat) (s : State) : (txAccepted len s).sent = s.sent ∧
    (txAccepted len s).sinkPlan = s.sinkPlan ∧ (txAccepted len s).now = s.now := by
  rcases txAccepted_cases len s with ⟨-, e⟩ | ⟨-, -, e⟩ | ⟨-, -, e⟩ <;> rw [e] <;> exact ⟨rfl, rfl, rfl⟩

/-- Every step of the TX engine: past the last line, outside its line, or one write and its answer. -/
theorem engineStep_frsend_cases (hc : s.ctrl = .busy .frsend) :
    engineStep s = .next (finish stOk [] s) ∨ engineStep s = .next s ∨
    ∃ l b plan n, s.txsegs[s.txi]? = some l ∧ l[s.txj]? = some b ∧
      (engineStep s = .next (txAccepted l.length (accepted b plan n s)) ∨
       engineStep s = .next (finish stIoError [] (answered plan n s)) ∨
       engineStep s = .next (answered plan n s)) := by
  rw [engineStep_frsend s hc]
  rcases txStep_cases s with ⟨-, e⟩ | ⟨-, -, -, e⟩ | ⟨l, b, hl, hb, -⟩
  · exact .inl e
  · exact .inr (.inl e)
  · obtain ⟨a, plan, n, ha⟩ := exists_nextAnswer s
    refine .inr (.inr ⟨l, b, plan, n, hl, hb, ?_⟩)
    cases a with
    | accept => exact .inl (txStep_accept hl hb ha)
    | ioerr => exact .inr (.inl (txStep_ioerr hl hb ha))
    | hold => exact .inr (.inr (txStep_hold hl hb ha))

end

/-- Settles O36, answer by answer. -/
theorem txWriteByAnswer : Obligations.TxWriteByAnswer := by
  intro s l b a plan n hc hl hb ha
  rw [engineStep_frsend s hc, ← txDelay_now]
  refine ⟨?_, ?_, ?_, ?_, ?_⟩
  · rintro rfl
    exact txStep_hold hl hb ha
  · rintro rfl
    exact txStep_ioerr hl hb ha
  · rintro rfl hj
    exact (txStep_accept hl hb ha).trans (congrArg _ (txAccepted_within hj))
  · rintro rfl hj hi
    exact (txStep_accept hl hb ha).trans (congrArg _ (txAccepted_next hj hi))
  · rintro rfl hj hi
    exact (txStep_accept hl hb ha).trans (congrArg _ (txAccepted_last hj (Nat.le_of_eq hi.symm)))

/-- Settles O37, by the cases of a write. -/
theorem continuationDelay : Obligations.ContinuationDelay := by
  intro s t hc h
  have hwait : 0 < s.txi → s.txj = 0 → s.txwake ≤ (txDelay s).now := fun hi hj => by
    rw [txDelay_now, if_pos ⟨hi, hj⟩]
    exact Nat.le_max_right ..
  have hnone : s.txi = 0 ∨ s.txj ≠ 0 → (txDelay s).now = s.now := fun hij => by
    rw [txDelay_now, if_neg (by omega)]
  rcases engineStep_frsend_cases hc with e | e | ⟨l, b, plan, n, hl, hb, e | e | e⟩ <;>
    cases h.symm.trans e
  · exact ⟨fun _ _ hsent => absurd rfl hsent, fun hi => absurd rfl hi, fun _ => rfl, fun _ => rfl⟩
  · exact ⟨fun _ _ hsent => absurd rfl hsent, fun hi => absurd rfl hi, fun _ => rfl, fun _ => rfl⟩
  · rcases txAccepted_cases l.length (accepted b plan n s) with
      ⟨-, e⟩ | ⟨hj, -, e⟩ | ⟨hj, -, e⟩ <;> rw [e]
    · exact ⟨fun hi hj _ => hwait hi hj, fun hi => absurd rfl hi, fun _ => rfl, hnone⟩
    · exact ⟨fun hi hj _ => hwait hi hj, fun _ => ⟨rfl, rfl, rfl, l, b, hl, hj, hb, rfl⟩,
        fun hi => absurd hi (Nat.succ_ne_self _), hnone⟩
    · exact ⟨fun hi hj _ => hwait hi hj, fun _ => ⟨rfl, rfl, rfl, l, b, hl, hj, hb, rfl⟩,
        fun hi => absurd hi (Nat.succ_ne_self _), hnone⟩
  · exact ⟨fun _ _ hsent => absurd rfl hsent, fun hi => absurd rfl hi, fun _ => rfl, hnone⟩
  · exact ⟨fun _ _ hsent => absurd rfl hsent, fun hi => absurd rfl hi, fun _ => rfl, hnone⟩

/-! ## Runs of many steps -/

/-- The same state with another agenda. -/
def withAgenda (a : List Input) (s : State) : State := { s with agenda := a }

section
variable {s t : State} {rest : List Input}

/-- A run goes on from where its first steps lead. -/
theorem run_add {M : Host.Core} {s t : M.State} {k : Nat} (m : Nat) (h : M.run k s = .next t) :
    M.run (k + m) s = M.run m t := by
  induction k generalizing s with
  | zero => cases h; rw [Nat.zero_add]
  | succ k ih =>
    rw [Nat.add_right_comm, Host.Core.run]
    rw [Host.Core.run] at h
    split at h
    · exact ih h
    · cases h
    · cases h

/-- With nothing on the agenda the engine or the host's sequence moves (log 3). -/
theorem step_of_agenda_nil (ha : s.agenda = []) : step s = engineStep s := by
  rw [step, systemStep, ha]

theorem step_proceed (ha : s.agenda = .proceed :: rest) : step s = engineStep (withAgenda rest s) := by
  rw [step, systemStep, ha]
  rfl

end

/-! ## A sink that holds (R238) -/

section
variable {s : State} {l : List Byte} {b : Byte} {n : Nat} {plan : List SinkAnswer} {rest : List Input}

theorem step_held {more : List Input} (hc : s.ctrl = .busy .frsend) (hl : s.txsegs[s.txi]? = some l)
    (hb : l[s.txj]? = some b) (hp : s.sinkPlan = .hold :: plan) (ha : s.agenda = .proceed :: more) :
    step s = .next (answered plan s.draws (withAgenda more s)) := by
  rw [step_proceed ha, engineStep_frsend (withAgenda more s) hc]
  exact txStep_hold (s := withAgenda more s) hl hb (.inl ⟨hp, rfl⟩)

/-- While the sink holds, only `Now()`, the answers left and the agenda move. -/
theorem run_held (hc : s.ctrl = .busy .frsend) (hl : s.txsegs[s.txi]? = some l) (hb : l[s.txj]? = some b)
    (hp : s.sinkPlan = List.replicate n .hold ++ plan)
    (ha : s.agenda = List.replicate n .proceed ++ .reset :: rest) :
    ∃ t, Host.Core.run core n s = .next t ∧
      t = { s with now := t.now, sinkPlan := plan, agenda := .reset :: rest } := by
  induction n generalizing s with
  | zero =>
    refine ⟨s, rfl, ?_⟩
    rw [List.replicate_zero, List.nil_append] at hp ha
    rw [← hp, ← ha]
  | succ n ih =>
    obtain ⟨t, e, hframe⟩ := ih (s := answered (List.replicate n .hold ++ plan) s.draws
      (withAgenda (List.replicate n .proceed ++ .reset :: rest) s)) hc hl hb rfl rfl
    exact ⟨t, (run_succ_of_step (M := core) n (step_held hc hl hb hp ha)).trans e, hframe⟩

end

/-- Settles O40, by induction on the held writes; `RESET` is then the next step. -/
theorem heldSinkHangsFrsend : Obligations.HeldSinkHangsFrsend := by
  intro s l n plan rest hc hl hj hp ha
  obtain ⟨t, e, hframe⟩ := run_held hc hl (List.getElem?_eq_getElem hj) hp ha
  have hkept : t.agenda = .reset :: rest ∧ t.ctrl = s.ctrl ∧ t.sent = s.sent ∧ t.results = s.results ∧
      t.txi = s.txi ∧ t.txj = s.txj := by
    rw [hframe]
    exact ⟨rfl, rfl, rfl, rfl, rfl, rfl⟩
  obtain ⟨hagenda, hctrl, hsent, hres, hi, hj⟩ := hkept
  exact ⟨⟨t, e, hctrl.trans hc, hsent, hres, hi, hj⟩,
    ⟨_, (run_add 1 e).trans (run_succ_of_step (M := core) 0 (step_reset hagenda)), rfl, hsent, hres⟩⟩

/-! ## A sink that accepts (R130, R131) -/

/-- `FRSEND` runs, and `rest` is what it has still to write: the rest of the line at `TXJ`, and the lines after
it, none of which is empty (R27). -/
def StillToWrite (rest : List Byte) (s : State) : Prop :=
  s.ctrl = .busy .frsend ∧ (∀ l ∈ s.txsegs, l ≠ []) ∧
    ∃ l, s.txsegs[s.txi]? = some l ∧ s.txj < l.length ∧ rest = l.drop s.txj ++ (s.txsegs.drop (s.txi + 1)).flatten

/-- `t` is `s` with `pre` written, one planned answer a byte; a frame of one line takes no time (log 4). -/
structure Written (pre : List Byte) (plan : List SinkAnswer) (s t : State) : Prop where
  frame : t = { s with
    ctrl := t.ctrl, txi := t.txi, txj := t.txj, txwake := t.txwake, now := t.now
    sinkPlan := t.sinkPlan, draws := t.draws, sent := t.sent, results := t.results }
  sent : t.sent = s.sent ++ pre
  plan : t.sinkPlan = plan
  now : s.txsegs.length ≤ 1 → t.now = s.now

/-- After a write, `FRSEND` still has `rest` to write, or has ended with `OK` as nothing is left. -/
def RunsOrEnded (rest : List Byte) (s t : State) : Prop :=
  (StillToWrite rest t ∧ t.results = s.results) ∨
  (rest = [] ∧ t.ctrl = .idle ∧ t.results = s.results ++ [[stOk]])

section
variable {s t u : State} {l pre more rest : List Byte} {b : Byte} {plan plan' : List SinkAnswer} {n : Nat}

theorem stillToWrite_ne_nil (h : StillToWrite rest s) : rest ≠ [] := by
  obtain ⟨-, -, l, -, hj, rfl⟩ := h
  simp only [ne_eq, List.append_eq_nil_iff, List.drop_eq_nil_iff, not_and]
  omega

/-- The next byte to write is the one at `TXI`, `TXJ`. -/
theorem stillToWrite_cons (h : StillToWrite (b :: rest) s) : ∃ l, s.txsegs[s.txi]? = some l ∧
    l[s.txj]? = some b ∧ rest = l.drop (s.txj + 1) ++ (s.txsegs.drop (s.txi + 1)).flatten := by
  obtain ⟨-, -, l, hl, hj, hrest⟩ := h
  rw [List.drop_eq_getElem_cons hj, List.cons_append] at hrest
  obtain ⟨rfl, rfl⟩ := List.cons.inj hrest
  exact ⟨l, hl, List.getElem?_eq_getElem hj, rfl⟩

/-- Once a byte is accepted, what is left follows it in its line or begins the next (R120). -/
theorem txAccepted_runsOrEnded (hc : s.ctrl = .busy .frsend) (hne : ∀ l ∈ s.txsegs, l ≠ [])
    (hl : s.txsegs[s.txi]? = some l) (hj : s.txj < l.length) :
    RunsOrEnded (l.drop (s.txj + 1) ++ (s.txsegs.drop (s.txi + 1)).flatten) s (txAccepted l.length s) := by
  rcases txAccepted_cases l.length s with ⟨hlast, e⟩ | ⟨hlast, hi, e⟩ | ⟨hlast, hi, e⟩ <;> rw [e]
  · exact .inl ⟨⟨hc, hne, l, hl, by simp only; omega, rfl⟩, rfl⟩
  · refine .inl ⟨⟨hc, hne, s.txsegs[s.txi + 1], List.getElem?_eq_getElem hi, ?_, ?_⟩, rfl⟩
    · exact List.length_pos_iff.mpr (hne _ (List.getElem_mem hi))
    · rw [hlast, List.drop_length, List.nil_append, List.drop_eq_getElem_cons hi]
      rfl
  · exact .inr ⟨by rw [hlast, List.drop_length, List.drop_of_length_le hi]; rfl, rfl, rfl⟩

/-- One accepted byte. -/
theorem engineStep_accept (h : StillToWrite (b :: rest) s) (hp : s.sinkPlan = .accept :: plan) :
    ∃ t, engineStep s = .next t ∧ Written [b] plan s t ∧ RunsOrEnded rest s t := by
  obtain ⟨l, hl, hb, rfl⟩ := stillToWrite_cons h
  obtain ⟨hc, hne, -⟩ := h
  have hi := (List.getElem?_eq_some_iff.mp hl).1
  have hj := (List.getElem?_eq_some_iff.mp hb).1
  have hstep := (engineStep_frsend s hc).trans (txStep_accept hl hb (.inl ⟨hp, rfl⟩))
  obtain ⟨hsent, hplan, hnow⟩ := txAccepted_keeps l.length (accepted b plan s.draws s)
  refine ⟨_, hstep, ⟨(tx_effect s _ hc hstep).1, hsent, hplan, fun hone => hnow.trans ?_⟩,
    txAccepted_runsOrEnded (s := accepted b plan s.draws s) hc hne hl hj⟩
  exact (txDelay_now s).trans (if_neg (by omega))

theorem written_nil (hp : s.sinkPlan = plan) : Written [] plan s s :=
  ⟨rfl, (List.append_nil _).symm, hp, fun _ => rfl⟩

theorem written_trans (h : Written pre plan' s t) (h' : Written more plan t u) :
    Written (pre ++ more) plan s u where
  frame := h'.frame.trans (by rw [h.frame])
  sent := by rw [h'.sent, h.sent, List.append_assoc]
  plan := h'.plan
  now := fun hone => (h'.now (by rw [h.frame]; exact hone)).trans (h.now hone)

/-- A write leaves the parameters, `SEQ`, the source and the host as they were (R120). -/
theorem written_keeps (h : Written pre plan s t) : t.params = s.params ∧ t.seq = s.seq ∧
    t.source = s.source ∧ t.agenda = s.agenda ∧ t.host = s.host ∧ t.returns = s.returns := by
  rw [h.frame]
  exact ⟨rfl, rfl, rfl, rfl, rfl, rfl⟩

theorem runsOrEnded_of_results (hres : t.results = s.results) (h : RunsOrEnded rest t u) :
    RunsOrEnded rest s u :=
  h.imp (fun ⟨hrest, e⟩ => ⟨hrest, e.trans hres⟩) fun ⟨hnil, hidle, e⟩ => ⟨hnil, hidle, hres ▸ e⟩

/-- As many steps as the sink accepts bytes write these bytes, in order. -/
theorem run_accepts (h : StillToWrite (pre ++ rest) s) (ha : s.agenda = [])
    (hp : s.sinkPlan = List.replicate pre.length .accept ++ plan) :
    ∃ t, Host.Core.run core pre.length s = .next t ∧ Written pre plan s t ∧ RunsOrEnded rest s t := by
  induction pre generalizing s with
  | nil => exact ⟨s, rfl, written_nil hp, .inl ⟨h, rfl⟩⟩
  | cons b pre ih =>
    obtain ⟨t, hstep, hone, hnext⟩ := engineStep_accept h hp
    have hrun := run_succ_of_step (M := core) pre.length ((step_of_agenda_nil ha).trans hstep)
    rcases hnext with ⟨hrest, hres⟩ | ⟨hnil, hidle, hres⟩
    · obtain ⟨-, -, -, hagenda, -, -⟩ := written_keeps hone
      obtain ⟨u, e, hmore, hnext⟩ := ih hrest (hagenda.trans ha) hone.plan
      exact ⟨u, hrun.trans e, written_trans hone hmore, runsOrEnded_of_results hres hnext⟩
    · obtain ⟨rfl, rfl⟩ := List.append_eq_nil_iff.mp hnil
      exact ⟨t, hrun, hone, .inr ⟨rfl, hidle, hres⟩⟩

/-! ## A whole `FRSEND` (R120, R128, R203) -/

/-- The state an accepted `FRSEND` begins to write in (R120, R128). -/
def sendFrame (p : List Byte) (s : State) : State :=
  { s with ctrl := .busy .frsend, txsegs := frameLines (frameBytes p), txi := 0, txj := 0, txwake := 0 }

/-- The bytes of a payload's segment lines (R128). -/
def frameText (p : List Byte) : List Byte := (frameLines (frameBytes p)).flatten

variable {p : List Byte} {k : Nat}

theorem stillToWrite_sendFrame (p : List Byte) (s : State) : StillToWrite (frameText p) (sendFrame p s) := by
  have hlines := frameLines_line_length (frameBytes p)
  have hpos : 0 < (frameLines (frameBytes p)).length := frameLines_length_pos _ (by simp)
  refine ⟨rfl, fun l hl => List.length_pos_iff.mp (hlines l hl).1, _, List.getElem?_eq_getElem hpos,
    (hlines _ (List.getElem_mem hpos)).1, ?_⟩
  exact congrArg List.flatten (List.drop_eq_getElem_cons hpos)

/-- The descriptor of an `FRSEND` that R121 admits is taken in one step (R26, R120; log 7). -/
theorem run_frsend_command (hc : s.ctrl = .idle) (hh : s.host = .free) (hwf : s.params.wf)
    (hp : p.length ≤ s.params.txMaxPayload) (ha : s.agenda = [.command (encode (.frsend p))]) :
    Host.Core.run core 1 s = .next (sendFrame p { s with agenda := [] }) := by
  obtain ⟨-, -, -, -, -, -, hmax⟩ := hwf
  have hdecode : decode (encode (.frsend p)) = .ok (.frsend p) :=
    decode_encode (decide_eq_true (by omega)) rfl
  have hstep : step s = .next (sendFrame p { s with agenda := [] }) := by
    rw [step_command hc hh ha, runDescriptor, hdecode]
    exact congrArg Host.Outcome.next (startFrsend_of_le p { s with agenda := [] } hp)
  exact run_succ_of_step (M := core) 0 hstep

/-- After the first `k` bytes of the frame's lines. -/
theorem run_sendFrame_take (ha : s.agenda = []) (hk : k ≤ (frameText p).length)
    (hp : s.sinkPlan = List.replicate k .accept ++ plan) :
    ∃ t, Host.Core.run core k (sendFrame p s) = .next t ∧
      Written ((frameText p).take k) plan (sendFrame p s) t ∧
      RunsOrEnded ((frameText p).drop k) (sendFrame p s) t := by
  have hlen : ((frameText p).take k).length = k := List.length_take_of_le hk
  have h := run_accepts (s := sendFrame p s) (pre := (frameText p).take k) (rest := (frameText p).drop k)
    (plan := plan) (by rw [List.take_append_drop]; exact stillToWrite_sendFrame p s) ha (by rw [hlen]; exact hp)
  rwa [hlen] at h

/-- While bytes are left, `FRSEND` runs. -/
theorem run_sendFrame_running (ha : s.agenda = []) (hk : k < (frameText p).length)
    (hp : s.sinkPlan = List.replicate k .accept ++ plan) :
    ∃ t, Host.Core.run core k (sendFrame p s) = .next t ∧
      Written ((frameText p).take k) plan (sendFrame p s) t ∧
      StillToWrite ((frameText p).drop k) t ∧ t.results = s.results := by
  obtain ⟨t, e, hw, ⟨hrest, hres⟩ | ⟨hnil, -⟩⟩ := run_sendFrame_take ha hk.le hp
  · exact ⟨t, e, hw, hrest, hres⟩
  · have := List.drop_eq_nil_iff.mp hnil
    omega

/-- Once all are written, it has ended with `OK`. -/
theorem run_sendFrame_ended (ha : s.agenda = [])
    (hp : s.sinkPlan = List.replicate (frameText p).length .accept ++ plan) :
    ∃ t, Host.Core.run core (frameText p).length (sendFrame p s) = .next t ∧
      Written (frameText p) plan (sendFrame p s) t ∧ t.ctrl = .idle ∧ t.results = s.results ++ [[stOk]] := by
  obtain ⟨t, e, hw, hend⟩ := run_sendFrame_take ha (Nat.le_refl _) hp
  rw [List.take_length] at hw
  rw [List.drop_length] at hend
  rcases hend with ⟨hrest, -⟩ | ⟨-, hidle, hres⟩
  · exact absurd rfl (stillToWrite_ne_nil hrest)
  · exact ⟨t, e, hw, hidle, hres⟩

end

/-- Settles O38, by induction on the bytes written. -/
theorem frsendWritesTheFrame : Obligations.FrsendWritesTheFrame := by
  intro s p plan hwf hc hh hlen ha bytes hp
  have hstart := run_frsend_command hc hh hwf hlen ha
  refine ⟨fun k hk => ?_, ?_⟩
  · have hplan : s.sinkPlan = List.replicate k .accept ++
        (List.replicate (bytes.length - k) .accept ++ plan) := by
      rw [hp, ← List.append_assoc, List.replicate_append_replicate, Nat.add_sub_cancel' hk.le]
    obtain ⟨t, e, hw, ⟨hrun, -⟩, hres⟩ := run_sendFrame_running (s := { s with agenda := [] }) rfl hk hplan
    exact ⟨t, (run_add k hstart).trans e, hrun, hw.sent, hres⟩
  · obtain ⟨t, e, hw, hidle, hres⟩ := run_sendFrame_ended (s := { s with agenda := [] }) rfl hp
    refine ⟨t, (run_add bytes.length hstart).trans e, hidle, hw.sent, hres, hw.plan, ?_⟩
    rw [hw.frame]
    exact ⟨rfl, rfl, rfl, rfl, rfl, rfl, rfl, rfl⟩

/-- Settles O39: the bytes before the error are written as they are to a sink that accepts. -/
theorem frsendStopsAtIoError : Obligations.FrsendStopsAtIoError := by
  intro s p k plan hwf hc hh hlen ha hk hp
  obtain ⟨t, e, hw, hrest, hres⟩ := run_sendFrame_running (s := { s with agenda := [] }) rfl hk hp
  have hrun : Host.Core.run core (1 + k) s = .next t :=
    (run_add k (run_frsend_command hc hh hwf hlen ha)).trans e
  have hcons : StillToWrite ((frameText p)[k] :: (frameText p).drop (k + 1)) t :=
    List.drop_eq_getElem_cons hk ▸ hrest
  obtain ⟨l, hl, hb, -⟩ := stillToWrite_cons hcons
  obtain ⟨-, hseq, hsource, hagenda, -, -⟩ := written_keeps hw
  have hstep : step t = .next (finish stIoError [] (answered plan t.draws t)) :=
    (step_of_agenda_nil hagenda).trans ((engineStep_frsend t hrest.1).trans
      (txStep_ioerr hl hb (.inl ⟨hw.plan, rfl⟩)))
  refine ⟨finish stIoError [] (answered plan t.draws t), ?_, rfl, hw.sent, ?_, rfl, hseq,
    hsource⟩
  · rw [show k + 2 = 1 + k + 1 by omega]
    exact (run_add 1 hrun).trans (run_succ_of_step (M := core) 0 hstep)
  · exact congrArg (· ++ [[stIoError]]) hres

end Sys2Proof.Machine
end

section
/-! PROOFS. The receive engine (42_framer_receive.md): a byte of a line, a line that is discarded, the segments
that leave a frame incomplete, the frame and wire rows, the deadline, and that `FRRECV` ends. -/

namespace Sys2Proof.Machine

/-! ## One read (R152, R153) -/

/-- The state once the next byte, which comes at `tick`, has been read (R45). -/
def consumed (tick : Nat) (rest : List (Nat × Byte)) (s : State) : State :=
  { s with now := max s.now tick, source := rest }

/-- The state once the `LF` of a line has been read: the line is out of `LINE` (R153). -/
def lineConsumed (tick : Nat) (rest : List (Nat × Byte)) (s : State) : State :=
  { consumed tick rest s with line := [], lovf := false }

section
variable {s t : State} {tick : Nat} {b : Byte} {rest : List (Nat × Byte)}

theorem uartRead_byte {limit : Nat} (hs : s.source = (tick, b) :: rest) (hn : s.now < limit) (ht : tick < limit) :
    uartRead limit s = (some b, consumed tick rest s) := by
  simp only [uartRead, hs, if_pos hn, if_pos ht]
  rfl

/-- A byte before the deadline goes to the line. -/
theorem engineStep_byte (hc : s.ctrl = .busy .frrecv) (hs : s.source = (tick, b) :: rest)
    (hn : s.now < s.deadline) (ht : tick < s.deadline) (hb : b ≠ lf) :
    engineStep s = .next (addToLine b (consumed tick rest s)) := by
  rw [engineStep_frrecv s hc, rxStep, uartRead_byte hs hn ht]
  exact if_neg hb

/-- An `LF` before the deadline ends the line. -/
theorem engineStep_lf (hc : s.ctrl = .busy .frrecv) (hs : s.source = (tick, lf) :: rest)
    (hn : s.now < s.deadline) (ht : tick < s.deadline) :
    engineStep s = takeLine s.line s.lovf (lineConsumed tick rest s) := by
  rw [engineStep_frrecv s hc, rxStep, uartRead_byte hs hn ht]
  rfl

theorem addToLine_room (h : s.line.length < s.params.lineCap) :
    addToLine b s = { s with line := s.line ++ [b] } := if_pos h

theorem addToLine_full (h : s.params.lineCap ≤ s.line.length) : addToLine b s = { s with lovf := true } :=
  if_neg (Nat.not_lt.mpr h)

end

/-- Settles O43: the byte goes to `addToLine`, and whatever the line does, `LINE` was cleared before. -/
theorem lineAssembly : Obligations.LineAssembly := by
  intro s tick b rest hc hs hn ht
  refine ⟨fun hb hroom => ?_, fun hb hfull => ?_, ?_⟩
  · rw [engineStep_byte hc hs hn ht hb, addToLine_room (s := consumed tick rest s) hroom]
    rfl
  · rw [engineStep_byte hc hs hn ht hb, addToLine_full (s := consumed tick rest s) hfull]
    rfl
  · rintro rfl t h
    obtain ⟨t', e, hframe, -⟩ := takeLine_effect s.line s.lovf (lineConsumed tick rest s) hc
    obtain rfl : t = t' := Host.Outcome.next.inj (h.symm.trans ((engineStep_lf hc hs hn ht).trans e))
    exact ⟨congrArg State.source hframe, congrArg State.line hframe, congrArg State.lovf hframe⟩

/-- Settles O51: the read finds nothing before the deadline. -/
theorem frrecvTimesOut : Obligations.FrrecvTimesOut := by
  intro s hc h
  rw [engineStep_frrecv s hc]
  rcases rxStep_cases s with ⟨-, e⟩ | ⟨tick, b, rest, hs, hn, ht, -⟩
  · exact e
  · rcases h with h | h | ⟨tick', b', rest', h, hlate⟩
    · omega
    · cases hs.symm.trans h
    · cases hs.symm.trans h
      omega

/-- Settles O52: only a byte before the deadline is taken, and no update touches `DEADLINE`. -/
theorem noReadAtDeadline : Obligations.NoReadAtDeadline := by
  intro s t hc h
  rcases rx_effect s t hc h with ⟨-, rfl⟩ | ⟨tick, b, rest, hs, hn, ht, ⟨-, e⟩ | ⟨-, e, -⟩⟩
  · exact ⟨rfl, .inl rfl⟩
  · rw [addToLine_effect] at e
    rw [e]
    exact ⟨rfl, .inr ⟨tick, b, hs, hn, ht, rfl⟩⟩
  · rw [e]
    exact ⟨rfl, .inr ⟨tick, b, hs, hn, ht, rfl⟩⟩

/-! ## Discarded lines and segments (R154 to R163) -/

section
variable {s : State} {l d x text : List Byte} {ov : Bool}

theorem takeSegment_of_unusable (take : List Byte → State → State)
    (h : b64dec text = none ∨ b64dec text = some []) : takeSegment take text s = s := by
  rcases h with h | h <;> simp [takeSegment, segmentData, h]

theorem takeStart_of_out_of_range
    (h : d.length < 2 ∨ (rd16 d 0).toNat < 2 ∨ s.params.rxCap < (rd16 d 0).toNat) : takeStart d s = s := by
  rcases takeStart_cases d s with e | ⟨hlen, hlo, hhi, -⟩
  · exact e
  · omega

theorem takeSegment_takeStart_of_out_of_range (hd : b64dec text = some d)
    (h : d.length < 2 ∨ (rd16 d 0).toNat < 2 ∨ s.params.rxCap < (rd16 d 0).toNat) :
    takeSegment takeStart text s = s := by
  by_cases hnil : d = []
  · exact takeSegment_of_unusable _ (.inr (hnil ▸ hd))
  · rw [takeSegment_of_b64dec _ _ hd hnil, takeStart_of_out_of_range h]

theorem takeSegment_takeCont_of_hunt (h : s.rxph = .hunt) : takeSegment takeCont text s = s := by
  rcases takeSegment_cases takeCont text s with e | ⟨d, -, -, e⟩
  · exact e
  · rw [e, takeCont, h]

/-- A line that overflowed, is noise, or is a continuation with no frame in progress changes nothing. -/
theorem takeLine_discarded (hc : s.ctrl = .busy .frrecv) (h : ov = true ∨ NoiseLine s.params l ∨
    (s.rxph = .hunt ∧ (lineBody l).take 2 = contMarker)) : takeLine l ov s = .next s := by
  rcases takeLine_eq_exec l ov s with e | ⟨hov, i, hi, e⟩
  · exact e
  · rw [e]
    have hdiffer : startMarker ≠ contMarker := by decide
    rcases decodeLine_ok _ i hi with ⟨hmark, rfl⟩ | ⟨hmark, rfl⟩
    · rw [exec_segStart_of_frrecv _ hc]
      rcases h with h | (h | ⟨h, -⟩ | h | h | ⟨-, d, hd, h⟩) | ⟨-, h⟩
      · cases hov.symm.trans h
      · rw [decodeLine, if_pos h] at hi; cases hi
      · exact absurd hmark h
      · rw [takeSegment_of_unusable _ (.inl h)]
      · rw [takeSegment_of_unusable _ (.inr h)]
      · rw [takeSegment_takeStart_of_out_of_range hd h]
      · exact absurd (hmark.symm.trans h) hdiffer
    · rw [exec_segCont_of_frrecv _ hc]
      rcases h with h | (h | ⟨-, h⟩ | h | h | ⟨h, -⟩) | ⟨h, -⟩
      · cases hov.symm.trans h
      · rw [decodeLine, if_pos h] at hi; cases hi
      · exact absurd hmark h
      · rw [takeSegment_of_unusable _ (.inl h)]
      · rw [takeSegment_of_unusable _ (.inr h)]
      · exact absurd (h.symm.trans hmark) hdiffer
      · rw [takeSegment_takeCont_of_hunt h]

end

/-- Settles O44: the `LF` hands the line on, and the line changes nothing. -/
theorem noiseIsDiscarded : Obligations.NoiseIsDiscarded := by
  intro s tick rest hc hs hn ht h
  exact (engineStep_lf hc hs hn ht).trans (takeLine_discarded (s := lineConsumed tick rest s) hc h)

/-- Settles O45, segment by segment. -/
theorem unusableSegments : Obligations.UnusableSegments := by
  intro text s hc
  rw [exec_segStart_of_frrecv text hc, exec_segCont_of_frrecv text hc]
  refine ⟨fun h => ⟨?_, ?_⟩, fun h => ?_⟩
  · rw [takeSegment_of_unusable _ h]
  · rw [takeSegment_of_unusable _ h]
  · rw [takeSegment_takeCont_of_hunt h]

/-! ## Segments that leave the frame incomplete (R162 to R164) -/

section
variable {s : State} {x : List Byte}

theorem appendData_overrun (h : s.exp.toNat < s.acc.length + x.length) : appendData x s = abandonFrame s :=
  if_pos h

theorem appendData_short (h : s.acc.length + x.length < s.exp.toNat) :
    appendData x s = { s with acc := s.acc ++ x } := by
  rcases appendData_cases x s with ⟨hl, -⟩ | ⟨hl, -⟩ | ⟨-, e⟩
  · omega
  · omega
  · exact e

end

/-- Settles O46: the segment's bytes are appended to an empty frame of its total. -/
theorem startSegmentTaken : Obligations.StartSegmentTaken := by
  intro text x total s hc hd h2 hcap
  have htake : takeSegment takeStart text s = appendData x (holdFrame total [] s) := by
    rw [takeSegment_of_b64dec _ _ hd (by simp [be16]), takeStart_of_total h2 hcap]
  rw [exec_segStart_of_frrecv text hc, htake]
  refine ⟨fun hlen => ?_, fun hlen => ?_⟩
  · exact congrArg _ (appendData_overrun (s := holdFrame total [] s) ((Nat.zero_add _).symm ▸ hlen))
  · exact congrArg _ (appendData_short (s := holdFrame total [] s) ((Nat.zero_add _).symm ▸ hlen))

/-- Settles O47: the segment's bytes are appended to the frame in progress. -/
theorem continuationSegmentTaken : Obligations.ContinuationSegmentTaken := by
  intro text x s hc hr hd hx
  rw [exec_segCont_of_frrecv text hc, takeSegment_of_b64dec _ _ hd hx, takeCont_of_accum x hr]
  refine ⟨fun hlen => ?_, fun hlen => ?_⟩
  · rw [appendData_overrun hlen]
    rfl
  · rw [appendData_short hlen]

/-! ## The frame and wire rows of the table (logs 8 and 9) -/

theorem exec_frame_of_frrecv {s : State} (p : List Byte) (trailer : U16) (hc : s.ctrl = .busy .frrecv) :
    exec (.frame p trailer) s = if s.params.rxCap < p.length + 2 then .next s else
      .next (completeFrame (holdFrame (BitVec.ofNat 16 (p.length + 2)) (p ++ be16 trailer) s)) := by
  rw [exec, execFrame, hc]
  rfl

/-- Settles O49: the row is the frame's completion, with the whole frame accumulated. -/
theorem frameRowIsChecked : Obligations.FrameRowIsChecked := by
  intro p trailer s hc hp
  have htotal : (BitVec.ofNat 16 (p.length + 2)).toNat = p.length + 2 := by
    rw [BitVec.toNat_ofNat]
    omega
  have hfits (h : p.length + 2 ≤ s.params.rxCap) : exec (.frame p trailer) s =
      .next (completeFrame (holdFrame (BitVec.ofNat 16 (p.length + 2)) (p ++ be16 trailer) s)) := by
    rw [exec_frame_of_frrecv p trailer hc, if_neg (Nat.not_lt.mpr h)]
  have haccepted := completeFrame_holdFrame_accepted (s := s) (a := p ++ be16 trailer)
    (total := BitVec.ofNat 16 (p.length + 2)) (by omega)
  have hrejected := completeFrame_holdFrame_rejected (s := s) (a := p ++ be16 trailer)
    (total := BitVec.ofNat 16 (p.length + 2))
  rw [htotal] at haccepted hrejected
  refine ⟨fun hlong => ?_, fun h hr => ?_, fun h hr hpol => ?_, fun h hr hpol => ?_⟩
  · rw [exec_frame_of_frrecv p trailer hc, if_pos hlong]
  · rw [hfits h, haccepted (.inl hr), hr, Nat.add_sub_cancel, List.take_left' rfl]
    rfl
  · rw [hfits h, haccepted (.inr hpol), frameStatus_of_ne_zero hr, Nat.add_sub_cancel,
      List.take_left' rfl]
    rfl
  · rw [hfits h, hrejected hr hpol]
    rfl

section
variable {s : State} (text p : List Byte) (trailer : U16)

theorem exec_segStart_waits (hc : s.ctrl ≠ .busy .frrecv) :
    exec (.segStart text) s = .next (arrive (startLine text) s) := by
  rw [exec, execSegStart]
  split
  · exact absurd ‹_› hc
  · rfl
  · rfl

theorem exec_segCont_waits (hc : s.ctrl ≠ .busy .frrecv) :
    exec (.segCont text) s = .next (arrive (contLine text) s) := by
  rw [exec, execSegCont]
  split
  · exact absurd ‹_› hc
  · rfl
  · rfl

theorem exec_frame_waits (hc : s.ctrl ≠ .busy .frrecv) :
    exec (.frame p trailer) s = .next (arrive (frameLines (encode (.frame p trailer))).flatten s) := by
  rw [exec, execFrame]
  split
  · exact absurd ‹_› hc
  · rfl
  · rfl

end

/-- Settles O50: while no `FRRECV` runs, each row is `arrive` of its words. -/
theorem wireRowsWait : Obligations.WireRowsWait :=
  fun text p trailer _ hc =>
    ⟨exec_segStart_waits text hc, exec_segCont_waits text hc, exec_frame_waits p trailer hc⟩

/-! ## `FRRECV` ends (R238) -/

section
variable {s : State}

/-- A step of the RX engine ends the command with a result, or takes a byte of the source. -/
theorem frrecv_ends_or_reads (hc : s.ctrl = .busy .frrecv) : ∃ t, engineStep s = .next t ∧
    ((t.ctrl = .idle ∧ ∃ r, t.results = s.results ++ [r]) ∨
      (t.ctrl = .busy .frrecv ∧ t.results = s.results ∧ t.agenda = s.agenda ∧
        ∃ x, s.source = x :: t.source)) := by
  rcases rxStep_cases s with ⟨-, e⟩ | ⟨tick, b, rest, hs, hn, ht, -⟩
  · exact ⟨_, (engineStep_frrecv s hc).trans e, .inl ⟨rfl, _, rfl⟩⟩
  · by_cases hb : b = lf
    · subst hb
      obtain ⟨t, e, hframe, heffect⟩ := takeLine_effect s.line s.lovf (lineConsumed tick rest s) hc
      refine ⟨t, (engineStep_lf hc hs hn ht).trans e, ?_⟩
      rcases heffect with ⟨hctrl, hres⟩ | ⟨hidle, -, -, hres⟩
      · have hsource : t.source = rest := congrArg State.source hframe
        have hagenda : t.agenda = s.agenda := by rw [hframe]; rfl
        exact .inr ⟨hctrl.trans hc, hres, hagenda, _, hsource ▸ hs⟩
      · exact .inl ⟨hidle, _, hres⟩
    · refine ⟨_, engineStep_byte hc hs hn ht hb, .inr ?_⟩
      rw [addToLine_effect]
      exact ⟨hc, rfl, rfl, _, hs⟩

theorem run_frrecv_ends (source : List (Nat × Byte)) (hs : s.source = source) (hc : s.ctrl = .busy .frrecv)
    (ha : s.agenda = []) : ∃ k ≤ source.length + 1, ∃ t, Host.Core.run core k s = .next t ∧ t.ctrl = .idle ∧
      ∃ r, t.results = s.results ++ [r] := by
  induction source generalizing s with
  | nil =>
    obtain ⟨t, e, hend | ⟨-, -, -, x, hx⟩⟩ := frrecv_ends_or_reads hc
    · exact ⟨1, by omega, t, run_succ_of_step (M := core) 0 ((step_of_agenda_nil ha).trans e), hend⟩
    · cases hs.symm.trans hx
  | cons x source ih =>
    obtain ⟨t, e, hend | ⟨hctrl, hres, hagenda, y, hy⟩⟩ := frrecv_ends_or_reads hc
    · exact ⟨1, by omega, t, run_succ_of_step (M := core) 0 ((step_of_agenda_nil ha).trans e), hend⟩
    · obtain ⟨-, hsource⟩ := List.cons.inj (hs.symm.trans hy)
      obtain ⟨k, hk, u, hrun, hend⟩ := ih hsource.symm hctrl (hagenda.trans ha)
      rw [hres] at hend
      exact ⟨k + 1, by rw [List.length_cons]; omega, u,
        (run_succ_of_step (M := core) k ((step_of_agenda_nil ha).trans e)).trans hrun, hend⟩

end

/-- Settles O55, by induction on the bytes of the source. -/
theorem frrecvAlwaysEnds : Obligations.FrrecvAlwaysEnds :=
  fun s hc ha => run_frrecv_ends s.source rfl hc ha

end Sys2Proof.Machine
end

section
/-! PROOFS. One step of the whole: whose turn it is, that there always is a next state, and what every step
keeps (R10, R25, R46, R183, R205, R206, R209). `MoveEffect` says once what any move but `RESET` can do. -/

namespace Sys2Proof.Machine

/-! ## Whose turn it is (R26, R215, R235; log 3) -/

section
variable {s : State} {d l t : List Byte} {i : Instr} {rest : List Input}

theorem not_accepting (h : s.ctrl ≠ .idle ∨ s.host ≠ .free) : ¬ s.accepting :=
  fun ⟨hc, hh⟩ => h.elim (absurd hc) (absurd hh)

theorem step_command_held (h : ¬ s.accepting) (ha : s.agenda = .command d :: rest) : step s = engineStep s := by
  rw [step, systemStep, ha]
  exact if_neg h

theorem step_perform_held (h : ¬ s.accepting) (ha : s.agenda = .perform i :: rest) : step s = engineStep s := by
  rw [step, systemStep, ha]
  exact if_neg h

theorem step_perform (hc : s.ctrl = .idle) (hh : s.host = .free) (ha : s.agenda = .perform i :: rest)
    (hi : i.wf = true) : step s = exec i { s with agenda := rest } := by
  have haccepting : s.accepting := ⟨hc, hh⟩
  rw [step, systemStep, ha]
  exact (if_pos haccepting).trans (if_pos hi)

theorem step_tick {n : Nat} (ha : s.agenda = .tick n :: rest) :
    step s = .next { s with now := s.now + n, agenda := rest } := by
  rw [step, systemStep, ha]

theorem engineStep_of_free (hc : s.ctrl = .idle) (hh : s.host = .free) : engineStep s = .next s := by
  rw [engineStep_idle s hc, hostStep, hostNext, hh]

theorem decodeLine_of_decodeWire (h : decodeWire (t ++ [lf]) = .ok i) : decodeLine t = .ok i := by
  unfold decodeWire at h
  split at h
  · rwa [List.dropLast_concat] at h
  · cases h

theorem takeLine_of_decodeLine (h : decodeLine (lineBody l) = .ok i) : takeLine l false s = exec i s := by
  simp [takeLine, stripCr_eq_lineBody, h]

end

/-- Settles O6, by the head of the agenda. -/
theorem whoMoves : Obligations.WhoMoves :=
  fun _ _ => ⟨step_of_agenda_nil, step_proceed, fun _ ha h => step_command_held (not_accepting h) ha,
    fun _ ha h => step_perform_held (not_accepting h) ha, fun _ => step_tick,
    fun ha hc hh => (step_of_agenda_nil ha).trans (engineStep_of_free hc hh)⟩

/-- Settles O5: a descriptor, a named instruction, and the line that an `LF` completes. -/
theorem stepRunsTheDecoded : Obligations.StepRunsTheDecoded := by
  refine ⟨fun s d i rest hc hh ha hd => ?_, fun s i rest hc hh ha hi => step_perform hc hh ha hi,
    fun s i tick rest hc ha hs hn ht hov hd => ?_⟩
  · rw [step_command hc hh ha, runDescriptor, hd]
  · rw [step_of_agenda_nil ha, engineStep_lf hc hs hn ht, hov,
      takeLine_of_decodeLine (decodeLine_of_decodeWire hd)]
    rfl

/-- Settles O9: both rows are `finishIllegal`. -/
theorem reservedCodesEnd : Obligations.ReservedCodesEnd := fun _ _ _ => ⟨rfl, rfl⟩

/-- At power-on the block is idle and its buffers are empty. -/
theorem resetWith_inv {p : Params} (h : p.wf) : (State.resetWith p).Inv :=
  inv_of_idle rfl ⟨h, Nat.zero_le _, Nat.zero_le _, nofun, Nat.zero_le _⟩

/-- Settles O17: the nominal parameters are in their ranges. -/
theorem invAtReset : Obligations.InvAtReset := ⟨fun _ => resetWith_inv, resetWith_inv (by decide)⟩

/-! ## What a move can do -/

/-- At most one UART access: one byte written, or one read, or bytes that come in arrival order (R45 to R47). -/
def UartAccess (s t : State) : Prop :=
  (t.sent = s.sent ∧ (t.source = s.source ∨ (∃ x, s.source = x :: t.source) ∨
    ∃ come more later, s.source = come ++ later ∧ t.source = come ++ more ++ later ∧
      (∀ x ∈ come, x.1 ≤ s.now) ∧ (∀ x ∈ more, x.1 = s.now) ∧ ∀ x, later.head? = some x → s.now < x.1)) ∨
  (t.source = s.source ∧ ∃ b, t.sent = s.sent ++ [b])

/-- At most one result, with a status of R200, which is `CRC_WARN` only under `ACCEPT`; the block is then idle
(R206, R209). -/
def OneResult (s t : State) : Prop :=
  t.results = s.results ∨ ∃ (c : Byte) (data : List Byte), t.results = s.results ++ [c :: data] ∧
    c.toNat ≤ 7 ∧ (c = stCrcWarn → s.params.crcPolicy = .accept) ∧ t.ctrl = .idle

/-- The idle block's builder delivers a header with the old `SEQ`, which goes up by one (R183). -/
def BuildsHeader (s t : State) : Prop :=
  s.ctrl = .idle ∧ t.seq = s.seq + 1 ∧
    ∃ op group id blen, t.results = s.results ++ [0x00 :: build op group id blen s.seq]

/-- What a move of the block, the host or the timebase can do, `RESET` excepted. -/
structure MoveEffect (s t : State) : Prop where
  params : t.params = s.params
  now : s.now ≤ t.now
  uart : UartAccess s t
  result : OneResult s t
  seq : t.seq = s.seq ∨ BuildsHeader s t

section
variable {s t : State} {a : List Input} {p : HostPhase} {c : Byte}

theorem uartAccess_none (hsent : t.sent = s.sent) (hsource : t.source = s.source) : UartAccess s t :=
  .inl ⟨hsent, .inl hsource⟩

theorem moveEffect_self (s : State) : MoveEffect s s :=
  ⟨rfl, Nat.le_refl _, uartAccess_none rfl rfl, .inl rfl, .inl rfl⟩

/-- What a move does is the same whatever the agenda. -/
theorem moveEffect_of_agenda (h : MoveEffect { s with agenda := a } t) : MoveEffect s t :=
  ⟨h.params, h.now, h.uart, h.result, h.seq⟩

/-- What a move does is the same whatever the host's phase. -/
theorem moveEffect_of_host (h : MoveEffect { s with host := p } t) : MoveEffect s t :=
  ⟨h.params, h.now, h.uart, h.result, h.seq⟩

theorem finish_effect (data : List Byte) (hle : c.toNat ≤ 7) (hwarn : c ≠ stCrcWarn) :
    MoveEffect s (finish c data s) :=
  ⟨rfl, Nat.le_refl _, uartAccess_none rfl rfl,
    .inr ⟨c, data, rfl, hle, fun h => absurd h hwarn, rfl⟩, .inl rfl⟩

theorem runBuilder_effect (op : Byte) (group : U16) (id : Byte) (blen : U16) (hc : s.ctrl = .idle) :
    MoveEffect s (runBuilder op group id blen s) :=
  ⟨rfl, Nat.le_refl _, uartAccess_none rfl rfl, .inr ⟨_, _, rfl, by decide, nofun, rfl⟩,
    .inr ⟨hc, rfl, op, group, id, blen, rfl⟩⟩

theorem matchStatus_cases (op : Byte) (grp : U16) (id eop : Byte) (egrp : U16) (eid : Byte) :
    matchStatus op grp id eop egrp eid = stOk ∨ matchStatus op grp id eop egrp eid = stHdrMismatch := by
  unfold matchStatus
  exact ite_eq_or_eq ..

theorem runParser_effect (eop : Byte) (egroup : U16) (eid : Byte) (r : List Byte) :
    MoveEffect s (runParser eop egroup eid r s) := by
  unfold runParser
  split
  · exact finish_effect _ (by decide) (by decide)
  · rcases matchStatus_cases (hdrOp r) (hdrGroup r) (hdrId r) eop egroup eid with h | h <;> rw [h] <;>
      exact finish_effect _ (by decide) (by decide)

theorem startFrsend_effect (payload : List Byte) (s : State) : MoveEffect s (startFrsend payload s) := by
  rcases startFrsend_cases payload s with ⟨-, e⟩ | ⟨-, e⟩ <;> rw [e]
  · exact finish_effect _ (by decide) (by decide)
  · exact ⟨rfl, Nat.le_refl _, uartAccess_none rfl rfl, .inl rfl, .inl rfl⟩

theorem startFrrecv_effect (s : State) : MoveEffect s (startFrrecv s) :=
  ⟨rfl, Nat.le_refl _, uartAccess_none rfl rfl, .inl rfl, .inl rfl⟩

theorem arrive_effect (bytes : List Byte) (s : State) : MoveEffect s (arrive bytes s) :=
  ⟨rfl, Nat.le_refl _, .inl ⟨rfl, .inr (.inr ⟨waiting s.now s.source, _, coming s.now s.source,
    (waiting_append_coming ..).symm, rfl, waiting_le _ _, by simp, coming_head _ _⟩)⟩, .inl rfl, .inl rfl⟩

theorem hostReturn_effect (v : HostReturn) (s : State) : MoveEffect s (hostReturn v s) :=
  ⟨rfl, Nat.le_refl _, uartAccess_none rfl rfl, .inl rfl, .inl rfl⟩

/-! ## Each agent's move -/

/-- An instruction, which the block takes only when idle (R26). -/
theorem exec_effect (i : Instr) (hc : s.ctrl = .idle) : ∃ t, exec i s = .next t ∧ MoveEffect s t := by
  have hwait : s.ctrl ≠ .busy .frrecv := by rw [hc]; nofun
  cases i with
  | crc16 => exact ⟨_, rfl, finish_effect _ (by decide) (by decide)⟩
  | reserved00 | reservedHi => exact ⟨_, rfl, finish_effect _ (by decide) (by decide)⟩
  | frsend payload => exact ⟨_, rfl, startFrsend_effect payload s⟩
  | frrecv => exact ⟨_, rfl, startFrrecv_effect s⟩
  | hdrbld | nmpRead | nmpWrite => exact ⟨_, rfl, runBuilder_effect _ _ _ _ hc⟩
  | hdrprs | nmpReadRsp | nmpWriteRsp => exact ⟨_, rfl, runParser_effect _ _ _ _⟩
  | segStart text => exact ⟨_, exec_segStart_waits text hwait, arrive_effect _ s⟩
  | segCont text => exact ⟨_, exec_segCont_waits text hwait, arrive_effect _ s⟩
  | frame payload trailer => exact ⟨_, exec_frame_waits payload trailer hwait, arrive_effect _ s⟩
  | sendreq header body =>
    exact ⟨_, rfl, moveEffect_of_host (startFrsend_effect (header ++ body) { s with host := .sending false })⟩
  | ping =>
    exact ⟨_, rfl, moveEffect_of_host
      (runBuilder_effect 0x00 0x0000 0x01 0 (s := { s with host := .building }) hc)⟩

/-- The host's own sequence (R68, R69). -/
theorem hostNext_effect (r : List Byte) (s : State) : MoveEffect s (hostNext r s) := by
  unfold hostNext
  split
  · exact moveEffect_self s
  · exact moveEffect_of_host (startFrsend_effect _ { s with host := .sending true })
  · split
    · exact hostReturn_effect _ s
    · exact moveEffect_of_host (startFrrecv_effect { s with host := .receiving _ })
  · split
    · exact hostReturn_effect _ s
    · split
      · exact moveEffect_of_host (runParser_effect _ _ _ _ (s := { s with host := .parsing }))
      · exact hostReturn_effect _ s
  · exact hostReturn_effect _ s

/-- The TX engine (R120, R130). -/
theorem engineStep_frsend_effect (hc : s.ctrl = .busy .frsend) : ∃ t, engineStep s = .next t ∧ MoveEffect s t := by
  have hnow := le_txDelay_now s
  rcases engineStep_frsend_cases hc with e | e | ⟨l, b, plan, n, -, -, e | e | e⟩
  · exact ⟨_, e, finish_effect _ (by decide) (by decide)⟩
  · exact ⟨_, e, moveEffect_self s⟩
  · refine ⟨_, e, ?_⟩
    rcases txAccepted_cases l.length (accepted b plan n s) with ⟨-, e⟩ | ⟨-, -, e⟩ | ⟨-, -, e⟩ <;> rw [e]
    · exact ⟨rfl, hnow, .inr ⟨rfl, b, rfl⟩, .inl rfl, .inl rfl⟩
    · exact ⟨rfl, hnow, .inr ⟨rfl, b, rfl⟩, .inl rfl, .inl rfl⟩
    · exact ⟨rfl, hnow, .inr ⟨rfl, b, rfl⟩, .inr ⟨stOk, [], rfl, by decide, nofun, rfl⟩, .inl rfl⟩
  · exact ⟨_, e, rfl, hnow, uartAccess_none rfl rfl, .inr ⟨stIoError, [], rfl, by decide, nofun, rfl⟩, .inl rfl⟩
  · exact ⟨_, e, rfl, hnow, uartAccess_none rfl rfl, .inl rfl, .inl rfl⟩

/-- A line that ends gives at most one result, of a frame that passes the policy (R166, R209). -/
theorem lineEffect_oneResult (h : LineEffect s t) : OneResult s t := by
  obtain ⟨-, ⟨-, hres⟩ | ⟨hidle, -, hcrc, hres⟩⟩ := h
  · exact .inl hres
  · rcases frameStatus_cases hcrc with ⟨hst, -⟩ | ⟨hst, -, hpolicy⟩ <;> rw [hst] at hres
    · exact .inr ⟨stOk, _, hres, by decide, nofun, hidle⟩
    · exact .inr ⟨stCrcWarn, _, hres, by decide, fun _ => hpolicy, hidle⟩

/-- The RX engine (R150, R152). -/
theorem engineStep_frrecv_effect (hc : s.ctrl = .busy .frrecv) : ∃ t, engineStep s = .next t ∧ MoveEffect s t := by
  obtain ⟨t, h, -⟩ := frrecv_ends_or_reads hc
  refine ⟨t, h, ?_⟩
  rcases rx_effect s t hc h with ⟨-, rfl⟩ | ⟨tick, b, rest, hs, hn, ht, ⟨-, e⟩ | ⟨-, hline⟩⟩
  · exact ⟨rfl, Nat.le_max_left .., uartAccess_none rfl rfl,
      .inr ⟨stNoData, [], rfl, by decide, nofun, rfl⟩, .inl rfl⟩
  · rw [addToLine_effect] at e
    rw [e]
    exact ⟨rfl, Nat.le_max_left .., .inl ⟨rfl, .inr (.inl ⟨_, hs⟩)⟩, .inl rfl, .inl rfl⟩
  · have hresult : OneResult s t := lineEffect_oneResult (s := lineConsumed tick rest s) hline
    obtain ⟨e, -⟩ := hline
    rw [e] at hresult ⊢
    exact ⟨rfl, Nat.le_max_left .., .inl ⟨rfl, .inr (.inl ⟨_, hs⟩)⟩, hresult, .inl rfl⟩

theorem engineStep_effect (s : State) : ∃ t, engineStep s = .next t ∧ MoveEffect s t := by
  match hc : s.ctrl with
  | .idle => exact ⟨_, engineStep_idle s hc, hostNext_effect _ s⟩
  | .busy .frsend => exact engineStep_frsend_effect hc
  | .busy .frrecv => exact engineStep_frrecv_effect hc

/-- Every step is `RESET` or a move. -/
theorem step_effect (s : State) : ∃ t, step s = .next t ∧ (MoveEffect s t ∨
    ∃ rest, s.agenda = .reset :: rest ∧ t = resetEvent { s with agenda := rest }) := by
  rcases step_cases s with ⟨n, rest, -, e⟩ | ⟨rest, ha, e⟩ | ⟨rest, -, e⟩ | ⟨e, -⟩ |
    ⟨rest, ⟨hc, -⟩, -, e | ⟨i, e⟩⟩ <;> rw [e]
  · exact ⟨_, rfl, .inl ⟨rfl, Nat.le_add_right .., uartAccess_none rfl rfl, .inl rfl, .inl rfl⟩⟩
  · exact ⟨_, rfl, .inr ⟨rest, ha, rfl⟩⟩
  · obtain ⟨t, h, heffect⟩ := engineStep_effect { s with agenda := rest }
    exact ⟨t, h, .inl (moveEffect_of_agenda heffect)⟩
  · obtain ⟨t, h, heffect⟩ := engineStep_effect s
    exact ⟨t, h, .inl heffect⟩
  · exact ⟨_, rfl, .inl (moveEffect_of_agenda
      (finish_effect (s := { s with agenda := rest }) _ (by decide) (by decide)))⟩
  · obtain ⟨t, h, heffect⟩ := exec_effect i (s := { s with agenda := rest }) hc
    exact ⟨t, h, .inl (moveEffect_of_agenda heffect)⟩

theorem step_next_effect (h : step s = .next t) : MoveEffect s t ∨
    ∃ rest, s.agenda = .reset :: rest ∧ t = resetEvent { s with agenda := rest } := by
  obtain ⟨t', h', heffect⟩ := step_effect s
  obtain rfl : t = t' := Host.Outcome.next.inj (h.symm.trans h')
  exact heffect

/-- `RESET` delivers no result and is no UART access (R230, R231). -/
theorem step_uartAccess (h : step s = .next t) : UartAccess s t := by
  rcases step_next_effect h with heffect | ⟨rest, -, rfl⟩
  · exact heffect.uart
  · exact uartAccess_none rfl rfl

theorem step_oneResult (h : step s = .next t) : OneResult s t := by
  rcases step_next_effect h with heffect | ⟨rest, -, rfl⟩
  · exact heffect.result
  · exact .inl rfl

/-- An instruction in any state, a running `FRRECV` included. -/
theorem exec_next (i : Instr) (s : State) : ∃ t, exec i s = .next t := by
  by_cases hc : s.ctrl = .busy .frrecv
  · cases i with
    | segStart text => exact ⟨_, exec_segStart_of_frrecv text hc⟩
    | segCont text => exact ⟨_, exec_segCont_of_frrecv text hc⟩
    | frame payload trailer =>
      rw [exec_frame_of_frrecv payload trailer hc]
      split <;> exact ⟨_, rfl⟩
    | _ => exact ⟨_, rfl⟩
  · cases i with
    | segStart text => exact ⟨_, exec_segStart_waits text hc⟩
    | segCont text => exact ⟨_, exec_segCont_waits text hc⟩
    | frame payload trailer => exact ⟨_, exec_frame_waits payload trailer hc⟩
    | _ => exact ⟨_, rfl⟩

end

/-- Settles O10: every agent's move, and every instruction, answers a next state. -/
theorem nothingTraps : Obligations.NothingTraps :=
  ⟨fun s => (step_effect s).imp fun _ h => h.1, exec_next⟩

/-- Settles O11, by the cases of a step. -/
theorem resultsHaveStatusCodes : Obligations.ResultsHaveStatusCodes :=
  fun _ _ h => (step_oneResult h).imp_right fun ⟨c, data, hres, hle, _, hidle⟩ => ⟨c, data, hres, hle, hidle⟩

/-- Settles O12, by the cases of a step. -/
theorem parametersAreStatic : Obligations.ParametersAreStatic := by
  intro s t h
  rcases step_next_effect h with heffect | ⟨rest, -, rfl⟩
  · exact heffect.params
  · rfl

/-- Settles O13, by the cases of a step. -/
theorem oneUartAccess : Obligations.OneUartAccess := fun _ _ => step_uartAccess

/-- Settles O14, by the cases of a step. -/
theorem timeNeverDecreases : Obligations.TimeNeverDecreases := by
  intro s t h
  rcases step_next_effect h with heffect | ⟨rest, -, rfl⟩
  · exact heffect.now
  · exact Nat.le_refl _

/-- Settles O25: only the builder, or `RESET`, moves `SEQ`. -/
theorem onlyTheBuilderMovesSeq : Obligations.OnlyTheBuilderMovesSeq := by
  intro s t h
  rcases step_next_effect h with heffect | ⟨rest, ha, rfl⟩
  · exact heffect.seq.imp_right .inr
  · exact .inr (.inl ⟨rest, ha, rfl⟩)

/-- Settles O54: the one result of a step is `CRC_WARN` only under `ACCEPT`. -/
theorem rejectNeverWarns : Obligations.RejectNeverWarns := by
  intro s t hpolicy h data hres
  rcases step_oneResult h with e | ⟨c, data', e, -, hwarn, -⟩ <;> rw [hres] at e
  · simp at e
  · have hc : c = stCrcWarn := by
      simp only [List.append_cancel_left_eq, List.cons.injEq, and_true] at e
      exact e.1.symm
    cases hpolicy.symm.trans (hwarn hc)

/-- Settles O41, by the whole effect of each engine's step. -/
theorem enginesKeepApart : Obligations.EnginesKeepApart := by
  refine fun s t h => ⟨fun hc => ?_, fun hc => ?_⟩
  · obtain ⟨e, -⟩ := tx_effect s t hc h
    rw [e]
    exact ⟨rfl, rfl, rfl, rfl, rfl, rfl, rfl, rfl, rfl⟩
  · rcases rx_effect s t hc h with ⟨-, rfl⟩ | ⟨tick, b, rest, hs, hn, ht, ⟨-, e⟩ | ⟨-, e, -⟩⟩
    · exact ⟨rfl, rfl, rfl, rfl, rfl, rfl, rfl, rfl, rfl⟩
    · rw [addToLine_effect] at e
      rw [e]
      exact ⟨rfl, rfl, rfl, rfl, rfl, rfl, rfl, rfl, rfl⟩
    · rw [e]
      exact ⟨rfl, rfl, rfl, rfl, rfl, rfl, rfl, rfl, rfl⟩

/-! ## A held descriptor (R235) -/

section
variable {s u : State} {d l x text : List Byte} {ov : Bool} {a : List Input}

theorem completeFrame_withAgenda : completeFrame (withAgenda a s) = withAgenda a (completeFrame s) := by
  simp only [completeFrame, apply_ite (withAgenda a)]
  rfl

theorem appendData_withAgenda : appendData x (withAgenda a s) = withAgenda a (appendData x s) := by
  rcases appendData_cases x s with ⟨h, e⟩ | ⟨h, e⟩ | ⟨h, e⟩ <;> rw [e]
  · exact appendData_overrun (s := withAgenda a s) h
  · rw [← completeFrame_withAgenda]
    exact (if_neg (Nat.not_lt.mpr h.le)).trans (if_pos (List.length_append.trans h))
  · exact appendData_short (s := withAgenda a s) h

theorem takeStart_withAgenda : takeStart d (withAgenda a s) = withAgenda a (takeStart d s) := by
  by_cases hout : d.length < 2 ∨ (rd16 d 0).toNat < 2 ∨ s.params.rxCap < (rd16 d 0).toNat
  · rw [takeStart_of_out_of_range hout]
    exact takeStart_of_out_of_range (s := withAgenda a s) hout
  · have hd : be16 (rd16 d 0) ++ d.drop 2 = d := be16_rd16_append_drop (by omega)
    have hlo : 2 ≤ (rd16 d 0).toNat := by omega
    have hcap : (rd16 d 0).toNat ≤ s.params.rxCap := by omega
    rw [← hd, takeStart_of_total hlo hcap, takeStart_of_total (s := withAgenda a s) hlo hcap]
    exact appendData_withAgenda (s := holdFrame (rd16 d 0) [] s)

theorem takeCont_withAgenda : takeCont d (withAgenda a s) = withAgenda a (takeCont d s) := by
  rcases takeCont_cases d s with ⟨h, e⟩ | ⟨h, e⟩ <;> rw [e]
  · rw [takeCont, withAgenda, h]
  · rw [takeCont_of_accum d (s := withAgenda a s) h, appendData_withAgenda]

theorem takeSegment_withAgenda (take : List Byte → State → State)
    (h : ∀ d, take d (withAgenda a s) = withAgenda a (take d s)) :
    takeSegment take text (withAgenda a s) = withAgenda a (takeSegment take text s) := by
  simp only [takeSegment]
  split
  · rfl
  · exact h _

theorem takeLine_withAgenda (hc : s.ctrl = .busy .frrecv) (h : takeLine l ov s = .next u) :
    takeLine l ov (withAgenda a s) = .next (withAgenda a u) := by
  have hc' : (withAgenda a s).ctrl = .busy .frrecv := hc
  unfold takeLine at h ⊢
  cases ov with
  | true => cases h; rfl
  | false =>
    cases hd : decodeLine (stripCr l) with
    | error => rw [hd] at h; cases h; rfl
    | ok i =>
      rw [hd] at h
      rcases decodeLine_ok _ i hd with ⟨-, rfl⟩ | ⟨-, rfl⟩
      · cases h.symm.trans (exec_segStart_of_frrecv _ hc)
        exact (exec_segStart_of_frrecv _ hc').trans
          (congrArg _ (takeSegment_withAgenda takeStart fun _ => takeStart_withAgenda))
      · cases h.symm.trans (exec_segCont_of_frrecv _ hc)
        exact (exec_segCont_of_frrecv _ hc').trans
          (congrArg _ (takeSegment_withAgenda takeCont fun _ => takeCont_withAgenda))

theorem addToLine_withAgenda (b : Byte) : addToLine b (withAgenda a s) = withAgenda a (addToLine b s) := by
  simp only [addToLine, apply_ite (withAgenda a)]
  rfl

theorem engineStep_frrecv_withAgenda (hc : s.ctrl = .busy .frrecv) (h : engineStep s = .next u) :
    engineStep (withAgenda a s) = .next (withAgenda a u) := by
  have hc' : (withAgenda a s).ctrl = .busy .frrecv := hc
  rcases rxStep_cases s with ⟨hlate, -⟩ | ⟨tick, b, rest, hs, hn, ht, ⟨hb, -⟩ | ⟨rfl, -⟩⟩
  · cases h.symm.trans (frrecvTimesOut s hc hlate)
    exact frrecvTimesOut (withAgenda a s) hc' hlate
  · cases h.symm.trans (engineStep_byte hc hs hn ht hb)
    exact (engineStep_byte hc' hs hn ht hb).trans (congrArg _ (addToLine_withAgenda (s := consumed tick rest s) b))
  · rw [engineStep_lf hc hs hn ht] at h
    exact (engineStep_lf hc' hs hn ht).trans (takeLine_withAgenda (s := lineConsumed tick rest s) hc h)

theorem txAccepted_withAgenda (len : Nat) : txAccepted len (withAgenda a s) = withAgenda a (txAccepted len s) := by
  rcases txAccepted_cases len s with ⟨hj, e⟩ | ⟨hj, hi, e⟩ | ⟨hj, hi, e⟩ <;> rw [e]
  · exact if_neg hj
  · exact txAccepted_next (s := withAgenda a s) hj hi
  · exact txAccepted_last (s := withAgenda a s) hj hi

theorem answered_withAgenda (plan : List SinkAnswer) (n : Nat) :
    answered plan n (withAgenda a s) = withAgenda a (answered plan n s) := by
  have hnow : (txDelay (withAgenda a s)).now = (txDelay s).now := by
    rw [txDelay_now, txDelay_now]
    rfl
  rw [answered, hnow]
  rfl

theorem txStep_withAgenda (h : txStep s = .next u) : txStep (withAgenda a s) = .next (withAgenda a u) := by
  rcases txStep_cases s with ⟨hl, e⟩ | ⟨l, hl, hb, e⟩ | ⟨l, b, hl, hb, -⟩
  · cases h.symm.trans e
    rw [txStep, show (withAgenda a s).txsegs[(withAgenda a s).txi]? = none from hl]
    rfl
  · cases h.symm.trans e
    rw [txStep, show (withAgenda a s).txsegs[(withAgenda a s).txi]? = some l from hl]
    simp only
    rw [show l[(withAgenda a s).txj]? = none from hb]
  · obtain ⟨answer, plan, n, ha⟩ := exists_nextAnswer s
    cases answer with
    | accept =>
      cases h.symm.trans (txStep_accept hl hb ha)
      rw [txStep_accept (s := withAgenda a s) hl hb ha, accepted, answered_withAgenda]
      exact congrArg _ (txAccepted_withAgenda (s := accepted b plan n s) l.length)
    | ioerr =>
      cases h.symm.trans (txStep_ioerr hl hb ha)
      rw [txStep_ioerr (s := withAgenda a s) hl hb ha, answered_withAgenda]
      rfl
    | hold =>
      cases h.symm.trans (txStep_hold hl hb ha)
      rw [txStep_hold (s := withAgenda a s) hl hb ha, answered_withAgenda]

/-- A running engine does not look at the agenda. -/
theorem engineStep_withAgenda (hc : s.ctrl ≠ .idle) (h : engineStep s = .next u) :
    engineStep (withAgenda a s) = .next (withAgenda a u) := by
  match hctrl : s.ctrl with
  | .idle => exact absurd hctrl hc
  | .busy .frsend =>
    rw [engineStep_frsend s hctrl] at h
    exact (engineStep_frsend (withAgenda a s) hctrl).trans (txStep_withAgenda h)
  | .busy .frrecv => exact engineStep_frrecv_withAgenda hctrl h

/-- A running engine leaves the host and `SEQ` alone, and runs on or ends with a result (R120, R150, R206). -/
theorem engineStep_busy_keeps (hc : s.ctrl ≠ .idle) (h : engineStep s = .next u) : u.host = s.host ∧
    u.seq = s.seq ∧ (u.ctrl = s.ctrl ∨ (u.ctrl = .idle ∧ ∃ r, u.results = s.results ++ [r])) := by
  match hctrl : s.ctrl with
  | .idle => exact absurd hctrl hc
  | .busy .frsend =>
    obtain ⟨e, hend⟩ := tx_effect s u hctrl h
    refine ⟨by rw [e], by rw [e], ?_⟩
    rcases hend with ⟨hsame, -⟩ | ⟨hidle, c, -, hres⟩
    · exact .inl (hsame.trans hctrl)
    · exact .inr ⟨hidle, _, hres⟩
  | .busy .frrecv =>
    rcases rx_effect s u hctrl h with ⟨-, rfl⟩ | ⟨tick, b, rest, -, -, -, ⟨-, e⟩ | ⟨-, e, hend⟩⟩
    · exact ⟨rfl, rfl, .inr ⟨rfl, _, rfl⟩⟩
    · rw [addToLine_effect] at e
      rw [e]
      exact ⟨rfl, rfl, .inl hctrl⟩
    · refine ⟨by rw [e], by rw [e], ?_⟩
      rcases hend with ⟨hsame, -⟩ | ⟨hidle, -, -, hres⟩
      · exact .inl (hsame.trans hctrl)
      · exact .inr ⟨hidle, _, hres⟩

end

/-- Settles O7: the step is the engine's, which does not look at the agenda. -/
theorem heldDescriptorStays : Obligations.HeldDescriptorStays := by
  intro s d rest hc ha
  obtain ⟨u, h, -⟩ := engineStep_effect (withAgenda [] s)
  have hheld : step s = engineStep (withAgenda (.command d :: rest) (withAgenda [] s)) := by
    rw [step_command_held (not_accepting (.inl hc)) ha, ← ha]
    rfl
  exact ⟨u, h, hheld.trans (engineStep_withAgenda (s := withAgenda [] s) hc h),
    engineStep_busy_keeps (s := withAgenda [] s) hc h⟩

end Sys2Proof.Machine
end

section
/-! PROOFS. A whole `FRRECV` over the lines of a frame with noise among them (R170), and a whole `PING` (R69). -/

namespace Sys2Proof.Machine

/-! ## The bytes a source offers (R45) -/

/-- The source offers these bytes before `deadline`, and then `rest`. -/
def Offers (deadline : Nat) (rest : List (Nat × Byte)) : List Byte → List (Nat × Byte) → Prop
  | [], source => source = rest
  | b :: bytes, source =>
    ∃ tick more, source = (tick, b) :: more ∧ tick < deadline ∧ Offers deadline rest bytes more

theorem offers_of_wire {deadline : Nat} {rest wire : List (Nat × Byte)} (h : ∀ x ∈ wire, x.1 < deadline) :
    Offers deadline rest (wire.map Prod.snd) (wire ++ rest) := by
  induction wire with
  | nil => rfl
  | cons x wire ih =>
    obtain ⟨hx, hwire⟩ := List.forall_mem_cons.mp h
    exact ⟨x.1, wire ++ rest, rfl, hx, ih hwire⟩

theorem offers_append {deadline : Nat} {rest source : List (Nat × Byte)} {a b : List Byte}
    (h : Offers deadline rest (a ++ b) source) :
    ∃ mid, Offers deadline mid a source ∧ Offers deadline rest b mid := by
  induction a generalizing source with
  | nil => exact ⟨source, rfl, h⟩
  | cons x a ih =>
    obtain ⟨tick, more, hs, ht, hmore⟩ := h
    obtain ⟨mid, ha, hb⟩ := ih hmore
    exact ⟨mid, ⟨tick, more, hs, ht, ha⟩, hb⟩

/-! ## Reading a line (R152 to R154) -/

/-- `FRRECV` runs by itself, and its deadline has not come. -/
structure Receiving (s : State) : Prop where
  ctrl : s.ctrl = .busy .frrecv
  agenda : s.agenda = []
  now : s.now < s.deadline

/-- `t` is `s` with the bytes `l` taken from the source into `LINE`, as far as there is room. -/
structure BytesRead (l : List Byte) (rest : List (Nat × Byte)) (s t : State) : Prop where
  frame : t = { s with now := t.now, source := rest, line := t.line, lovf := t.lovf }
  now : t.now < s.deadline
  fits : s.line.length + l.length ≤ s.params.lineCap → t.line = s.line ++ l ∧ t.lovf = s.lovf
  overflows : s.lovf = true ∨ s.params.lineCap < s.line.length + l.length → t.lovf = true

/-- The state once a line has been read whole and taken out of `LINE` (R153). -/
def lineTaken (w : Nat) (rest : List (Nat × Byte)) (s : State) : State :=
  { s with now := w, source := rest, line := [], lovf := false }

section
variable {s t u : State} {l : List Byte} {b : Byte} {tick : Nat} {rest more : List (Nat × Byte)}

theorem step_receiving (h : Receiving s) : step s = engineStep s := step_of_agenda_nil h.agenda

theorem bytesRead_nil (hs : s.source = rest) (hn : s.now < s.deadline)
    (hcap : s.line.length ≤ s.params.lineCap) : BytesRead [] rest s s where
  frame := by rw [← hs]
  now := hn
  fits := fun _ => ⟨(List.append_nil _).symm, rfl⟩
  overflows := fun h => h.resolve_right (Nat.not_lt.mpr hcap)

/-- One byte that is not `LF`, then the others. -/
theorem bytesRead_cons (h : BytesRead l rest (addToLine b (consumed tick more s)) t) :
    BytesRead (b :: l) rest s t := by
  by_cases hroom : s.line.length < s.params.lineCap
  · rw [addToLine_room (s := consumed tick more s) hroom] at h
    obtain ⟨hframe, hnow, hfits, hover⟩ := h
    simp only [List.length_append, List.length_cons, List.length_nil, consumed] at hfits hover
    refine ⟨by rw [hframe]; rfl, hnow, fun hlen => ?_, fun hlen => hover ?_⟩
    · obtain ⟨hline, hlovf⟩ := hfits (by rw [List.length_cons] at hlen; omega)
      exact ⟨by rw [hline, List.append_assoc]; rfl, hlovf⟩
    · rw [List.length_cons] at hlen
      exact hlen.imp_right fun _ => by omega
  · rw [addToLine_full (s := consumed tick more s) (Nat.not_lt.mp hroom)] at h
    obtain ⟨hframe, hnow, -, hover⟩ := h
    refine ⟨by rw [hframe]; rfl, hnow, fun hlen => ?_, fun _ => hover (.inl rfl)⟩
    rw [List.length_cons] at hlen
    omega

theorem addToLine_receiving (h : Receiving s) (ht : tick < s.deadline)
    (hcap : s.line.length ≤ s.params.lineCap) : Receiving (addToLine b (consumed tick more s)) ∧
      (addToLine b (consumed tick more s)).line.length ≤ (addToLine b (consumed tick more s)).params.lineCap := by
  have hreceiving : Receiving (addToLine b (consumed tick more s)) := by
    rw [addToLine_effect]
    exact ⟨h.ctrl, h.agenda, Nat.max_lt.mpr ⟨h.now, ht⟩⟩
  refine ⟨hreceiving, ?_⟩
  by_cases hroom : s.line.length < s.params.lineCap
  · rw [addToLine_room (s := consumed tick more s) hroom]
    simpa [consumed] using hroom
  · rw [addToLine_full (s := consumed tick more s) (Nat.not_lt.mp hroom)]
    exact hcap

/-- As many steps as there are bytes read a line up to its `LF`. -/
theorem run_bytes (h : Receiving s) (hl : lf ∉ l) (ho : Offers s.deadline rest l s.source)
    (hcap : s.line.length ≤ s.params.lineCap) :
    ∃ t, Host.Core.run core l.length s = .next t ∧ BytesRead l rest s t := by
  induction l generalizing s with
  | nil => exact ⟨s, rfl, bytesRead_nil ho h.now hcap⟩
  | cons b l ih =>
    obtain ⟨tick, more, hs, ht, ho⟩ := ho
    rw [List.mem_cons, not_or] at hl
    obtain ⟨hreceiving, hcap⟩ := addToLine_receiving (b := b) (more := more) h ht hcap
    have hfields : (addToLine b (consumed tick more s)).deadline = s.deadline ∧
        (addToLine b (consumed tick more s)).source = more := by
      rw [addToLine_effect]
      exact ⟨rfl, rfl⟩
    obtain ⟨t, e, hread⟩ := ih hreceiving hl.2 (by rw [hfields.1, hfields.2]; exact ho) hcap
    exact ⟨t, (run_succ_of_step (M := core) l.length ((step_receiving h).trans
      (engineStep_byte h.ctrl hs h.now ht (Ne.symm hl.1)))).trans e, bytesRead_cons hread⟩

/-- `FRRECV` is about to read a line. -/
structure BetweenLines (s : State) : Prop where
  receiving : Receiving s
  line : s.line = []
  lovf : s.lovf = false

theorem betweenLines_lineTaken {w : Nat} (h : BetweenLines s) (hw : w < s.deadline) :
    BetweenLines (lineTaken w rest s) :=
  ⟨⟨h.receiving.ctrl, h.receiving.agenda, hw⟩, rfl, rfl⟩

/-- Then the `LF` hands the line on: overflowed if it was too long, and as it is if it was not. -/
theorem run_line (h : BetweenLines s) (hl : lf ∉ l)
    (ho : Offers s.deadline rest (l ++ [lf]) s.source) : ∃ w < s.deadline,
    (s.params.lineCap < l.length → Host.Core.run core (l ++ [lf]).length s = .next (lineTaken w rest s)) ∧
    (l.length ≤ s.params.lineCap → ∀ u, takeLine l false (lineTaken w rest s) = .next u →
      Host.Core.run core (l ++ [lf]).length s = .next u) := by
  obtain ⟨h, hline, hlovf⟩ := h
  obtain ⟨mid, hbytes, tick, more, hs, ht, rfl⟩ := offers_append ho
  obtain ⟨t, e, hframe, hnow, hfits, hover⟩ := run_bytes h hl hbytes (by simp [hline])
  rw [hline, List.length_nil, Nat.zero_add] at hfits hover
  have hafter : lineConsumed tick more t = lineTaken (max t.now tick) more s := by
    rw [hframe]
    rfl
  have hreceiving : Receiving t ∧ t.deadline = s.deadline ∧ t.source = mid := by
    rw [hframe]
    exact ⟨⟨h.ctrl, h.agenda, hnow⟩, rfl, rfl⟩
  obtain ⟨ht', hdead, hsource⟩ := hreceiving
  have hlf {u : State} (hu : takeLine t.line t.lovf (lineTaken (max t.now tick) more s) = .next u) :
      Host.Core.run core (l ++ [lf]).length s = .next u := by
    have hstep := engineStep_lf ht'.ctrl (hsource.trans hs) ht'.now (hdead ▸ ht)
    rw [hafter, hu] at hstep
    rw [List.length_append]
    exact (run_add 1 e).trans (run_succ_of_step (M := core) 0 ((step_receiving ht').trans hstep))
  refine ⟨max t.now tick, Nat.max_lt.mpr ⟨hnow, ht⟩, fun hlong => hlf ?_, fun hshort u hu => hlf ?_⟩
  · rw [hover (.inr hlong)]
    rfl
  · obtain ⟨hline', hlovf'⟩ := hfits hshort
    rwa [hline', hlovf', hlovf]

/-! ## Noise (R161, R170) -/

/-- Lines that the receiver discards in every state, each without its `LF`. -/
def IsNoise (p : Params) (l : List Byte) : Prop := lf ∉ l ∧ (NoiseLine p l ∨ p.lineCap < l.length)

theorem run_noise_line (h : BetweenLines s) (hnoise : IsNoise s.params l)
    (ho : Offers s.deadline rest (l ++ [lf]) s.source) :
    ∃ w < s.deadline, Host.Core.run core (l ++ [lf]).length s = .next (lineTaken w rest s) := by
  obtain ⟨hl, hnoise⟩ := hnoise
  obtain ⟨w, hw, hlong, hshort⟩ := run_line h hl ho
  refine ⟨w, hw, ?_⟩
  by_cases hlen : s.params.lineCap < l.length
  · exact hlong hlen
  · exact hshort (Nat.not_lt.mp hlen) _ (takeLine_discarded (s := lineTaken w rest s) h.receiving.ctrl
      (.inr (.inl (hnoise.resolve_right hlen))))

/-- A block of noise lines only takes them out of the source. -/
theorem run_noise {block : List (List Byte)} (h : BetweenLines s) (hnoise : ∀ l ∈ block, IsNoise s.params l)
    (ho : Offers s.deadline rest (block.map (· ++ [lf])).flatten s.source) : ∃ w < s.deadline,
      Host.Core.run core (block.map (· ++ [lf])).flatten.length s = .next (lineTaken w rest s) := by
  induction block generalizing s with
  | nil =>
    refine ⟨s.now, h.receiving.now, ?_⟩
    have hsource : s.source = rest := ho
    have hsame : lineTaken s.now rest s = s := by rw [lineTaken, ← hsource, ← h.line, ← h.lovf]
    rw [hsame]
    rfl
  | cons l block ih =>
    obtain ⟨hl, hblock⟩ := List.forall_mem_cons.mp hnoise
    obtain ⟨mid, hline, hrest⟩ := offers_append ho
    obtain ⟨w, hw, e⟩ := run_noise_line h hl hline
    obtain ⟨w', hw', e'⟩ := ih (s := lineTaken w mid s) (betweenLines_lineTaken h hw) hblock hrest
    refine ⟨w', hw', ?_⟩
    rw [List.map_cons, List.flatten_cons, List.length_append]
    exact (run_add _ e).trans e'

/-! ## The lines of a frame (R126 to R128, R157 to R166) -/

theorem lf_not_mem_b64enc (c : List Byte) : lf ∉ b64enc c := by
  intro h
  rcases b64enc_char c lf h with h | ⟨v, -, h⟩
  · exact absurd h (by decide)
  · cases h

/-- The segment that a marker and a text spell (R74, R157). -/
def Spells (marker text : List Byte) (i : Instr) : Prop :=
  (marker = startMarker ∧ i = .segStart text) ∨ (marker = contMarker ∧ i = .segCont text)

theorem decodeLine_of_spells {marker text : List Byte} {i : Instr} (h : Spells marker text i) :
    decodeLine (lineBody (marker ++ text)) = .ok i := by
  rcases h with ⟨rfl, rfl⟩ | ⟨rfl, rfl⟩
  · exact decodeLine_startMarker text
  · exact decodeLine_contMarker text

theorem marker_of_spells {marker text : List Byte} {i : Instr} (h : Spells marker text i) :
    lf ∉ marker ∧ marker.length = 2 := by
  rcases h with ⟨rfl, -⟩ | ⟨rfl, -⟩ <;> decide

/-- A block of noise, then a segment line that carries at most 93 bytes: it is within `LINE_CAP`, and its
segment is executed. -/
theorem run_noise_segment {block : List (List Byte)} {marker c bytes : List Byte} {i : Instr} (h : BetweenLines s)
    (hcap : 127 ≤ s.params.lineCap) (hi : Spells marker (b64enc c) i) (hc : c.length ≤ 93)
    (hnoise : ∀ l ∈ block, IsNoise s.params l)
    (ho : Offers s.deadline rest
      ((block.map (· ++ [lf])).flatten ++ (marker ++ b64enc c ++ [lf]) ++ bytes) s.source) :
    ∃ w < s.deadline, ∃ mid, Offers s.deadline rest bytes mid ∧
      ∀ u, exec i (lineTaken w mid s) = .next u →
        Host.Core.run core ((block.map (· ++ [lf])).flatten ++ (marker ++ b64enc c ++ [lf])).length s = .next u := by
  obtain ⟨mid, ho, hmore⟩ := offers_append ho
  obtain ⟨first, hblock, hline⟩ := offers_append ho
  obtain ⟨w1, hw1, e1⟩ := run_noise h hnoise hblock
  obtain ⟨hm, hm2⟩ := marker_of_spells hi
  have hlf : lf ∉ marker ++ b64enc c := by simp [hm, lf_not_mem_b64enc]
  have hlen : (marker ++ b64enc c).length ≤ s.params.lineCap := by
    rw [List.length_append, hm2, b64enc_length]
    omega
  obtain ⟨w2, hw2, -, hshort⟩ := run_line (s := lineTaken w1 first s) (betweenLines_lineTaken h hw1) hlf hline
  refine ⟨w2, hw2, mid, hmore, fun u hu => ?_⟩
  rw [List.length_append]
  exact (run_add _ e1).trans (hshort hlen u ((takeLine_of_decodeLine (decodeLine_of_spells hi)).trans hu))

end

/-- A whole frame's payload and trailer `a`, with its total and an intact trailer (R72, R165). -/
structure IntactFrame (total : U16) (a : List Byte) : Prop where
  two_le : 2 ≤ total.toNat
  length : a.length = total.toNat
  crc : crc16 a total.toNat true = 0

/-- The state once the frame has been delivered (R166). -/
def frameDone (total : U16) (a : List Byte) (s : State) : State :=
  finish stOk (be16Nat (total.toNat - 2) ++ [0x00, 0x00] ++ a.take (total.toNat - 2)) (holdFrame total a s)

/-- What the lines of a frame carry: at most 93 bytes each, and none carries nothing (R132). -/
def Loads (cs : List (List Byte)) : Prop := ∀ c ∈ cs, c ≠ [] ∧ c.length ≤ 93

section
variable {s : State} {total : U16} {a c x : List Byte} {cs : List (List Byte)} {ns : List (List (List Byte))}
  {block : List (List Byte)} {rest : List (Nat × Byte)}

theorem completeFrame_intact (h : IntactFrame total a) :
    completeFrame (holdFrame total a s) = frameDone total a s := by
  rw [completeFrame_holdFrame_accepted h.two_le (.inl h.crc), h.crc]
  rfl

theorem flatten_length_pos (h : Loads cs) (hne : cs ≠ []) : 0 < cs.flatten.length := by
  cases cs with
  | nil => exact absurd rfl hne
  | cons c cs =>
    have := List.length_pos_iff.mpr (h c List.mem_cons_self).1
    rw [List.flatten_cons, List.length_append]
    omega

/-- The continuation lines of a frame in progress, with noise before each, bring it to its end. -/
theorem run_continuations (h : BetweenLines s) (hcap : 127 ≤ s.params.lineCap) (hr : s.rxph = .accum)
    (he : s.exp = total) (hframe : IntactFrame total (s.acc ++ cs.flatten)) (hloads : Loads cs) (hne : cs ≠ [])
    (hns : ns.length = cs.length) (hnoise : ∀ block ∈ ns, ∀ l ∈ block, IsNoise s.params l)
    (ho : Offers s.deadline rest (interleaved ns (cs.map fun c => contLine (b64enc c))) s.source) :
    ∃ w, Host.Core.run core (interleaved ns (cs.map fun c => contLine (b64enc c))).length s =
      .next (frameDone total (s.acc ++ cs.flatten) (lineTaken w rest s)) := by
  induction cs generalizing s ns with
  | nil => exact absurd rfl hne
  | cons c cs ih =>
    obtain ⟨block, ns, rfl⟩ := List.exists_cons_of_length_eq_add_one hns
    obtain ⟨hblock, hnoise⟩ := List.forall_mem_cons.mp hnoise
    obtain ⟨⟨hc, hlen⟩, hloads⟩ := List.forall_mem_cons.mp hloads
    obtain ⟨w, hw, mid, hmore, hrun⟩ := run_noise_segment h hcap (.inr ⟨rfl, rfl⟩) hlen hblock ho
    have hd : b64dec (b64enc c) = some c := base64RoundTrip c
    have hctrl := h.receiving.ctrl
    rw [List.flatten_cons, ← List.append_assoc] at hframe ⊢
    rw [List.map_cons, interleaved, List.length_append]
    by_cases hlast : cs = []
    · subst hlast
      obtain rfl := List.length_eq_zero_iff.mp (Nat.succ.inj hns)
      obtain rfl : mid = rest := hmore
      rw [List.flatten_nil, List.append_nil] at hframe ⊢
      exact ⟨w, hrun _ ((exec_segCont_completes (s := lineTaken w mid s) hctrl hr he hframe.length hd hc).trans
        (congrArg _ (completeFrame_intact hframe)))⟩
    · have hpos := flatten_length_pos hloads hlast
      have htotal := hframe.length
      simp only [List.length_append] at htotal
      have hshort : s.acc.length + c.length < s.exp.toNat := by rw [he]; omega
      have hu := (continuationSegmentTaken (b64enc c) c (lineTaken w mid s) hctrl hr hd hc).2 hshort
      obtain ⟨w', e⟩ := ih (s := { lineTaken w mid s with acc := s.acc ++ c })
        ⟨⟨hctrl, h.receiving.agenda, hw⟩, rfl, rfl⟩ hcap hr he hframe hloads hlast (Nat.succ.inj hns)
        hnoise hmore
      exact ⟨w', (run_add _ (hrun _ hu)).trans e⟩

/-- The lines of an intact frame that fits, with noise before each, are received as that frame. -/
theorem run_frame (h : BetweenLines s) (hcap : 127 ≤ s.params.lineCap) (hfits : total.toNat ≤ s.params.rxCap)
    (hframe : IntactFrame total (x ++ cs.flatten)) (hloads : Loads ((be16 total ++ x) :: cs))
    (hns : ns.length = cs.length + 1) (hnoise : ∀ block ∈ ns, ∀ l ∈ block, IsNoise s.params l)
    (ho : Offers s.deadline rest (interleaved ns (seglines (((be16 total ++ x) :: cs).map b64enc))) s.source) :
    ∃ w, Host.Core.run core (interleaved ns (seglines (((be16 total ++ x) :: cs).map b64enc))).length s =
      .next (frameDone total (x ++ cs.flatten) (lineTaken w rest s)) := by
  obtain ⟨block, ns, rfl⟩ := List.exists_cons_of_length_eq_add_one hns
  obtain ⟨hblock, hnoise⟩ := List.forall_mem_cons.mp hnoise
  obtain ⟨⟨hc, hlen⟩, hloads⟩ := List.forall_mem_cons.mp hloads
  rw [List.map_cons, seglines, List.map_map, interleaved] at ho ⊢
  obtain ⟨w, hw, mid, hmore, hrun⟩ := run_noise_segment h hcap (.inl ⟨rfl, rfl⟩) hlen hblock ho
  have hd : b64dec (b64enc (be16 total ++ x)) = some (be16 total ++ x) := base64RoundTrip _
  have hctrl := h.receiving.ctrl
  rw [List.length_append]
  by_cases hone : cs = []
  · subst hone
    obtain rfl := List.length_eq_zero_iff.mp (Nat.succ.inj hns)
    obtain rfl : mid = rest := hmore
    rw [List.flatten_nil, List.append_nil] at hframe ⊢
    exact ⟨w, hrun _ ((exec_segStart_completes (s := lineTaken w mid s) hctrl hframe.two_le hframe.length hd
      hfits).trans (congrArg _ (completeFrame_intact hframe)))⟩
  · have hpos := flatten_length_pos hloads hone
    have htotal := hframe.length
    rw [List.length_append] at htotal
    have hu := (startSegmentTaken _ x total (lineTaken w mid s) hctrl hd hframe.two_le hfits).2 (by omega)
    obtain ⟨w', e⟩ := run_continuations (s := holdFrame total x (lineTaken w mid s))
      ⟨⟨hctrl, h.receiving.agenda, hw⟩, rfl, rfl⟩ hcap rfl rfl hframe hloads hone (Nat.succ.inj hns) hnoise hmore
    exact ⟨w', (run_add _ (hrun _ hu)).trans e⟩

end

/-! ## The frame of a payload (R72, R127) -/

/-- The bytes each line of a frame carries (R132). -/
def lineLoads (f : List Byte) : List (List Byte) :=
  (List.range (ceilDiv (b64enc f).length 124)).map fun k => (f.drop (93 * k)).take 93

section
variable {f p : List Byte} {s : State} {ns : List (List (List Byte))} {rest : List (Nat × Byte)}

theorem lt_length_of_lineLoads {k : Nat} (h : k < ceilDiv (b64enc f).length 124) : 93 * k < f.length := by
  rw [b64enc_length, ceilDiv] at h
  omega

theorem split124_b64enc (f : List Byte) : split124 (b64enc f) = (lineLoads f).map b64enc := by
  rw [split124, lineLoads, List.map_map]
  refine List.map_congr_left fun k hk => ?_
  have h := b64enc_piece f k (lt_length_of_lineLoads (List.mem_range.mp hk)).le
  rwa [slice, slice, Nat.add_sub_cancel_left, Nat.add_sub_cancel_left] at h

theorem lineLoads_flatten (f : List Byte) : (lineLoads f).flatten = f := by
  rw [lineLoads, flatten_pieces]
  refine List.take_of_length_le ?_
  rw [b64enc_length, ceilDiv]
  omega

theorem lineLoads_loads (f : List Byte) : Loads (lineLoads f) := by
  intro c hc
  obtain ⟨k, hk, rfl⟩ := List.mem_map.mp hc
  have hlt := lt_length_of_lineLoads (List.mem_range.mp hk)
  refine ⟨List.ne_nil_of_length_pos ?_, List.length_take_le ..⟩
  rw [List.length_take, List.length_drop]
  omega

/-- The trailer of a frame is intact (R105, R125). -/
theorem intactFrame_frameBytes (h : p.length ≤ 65533) :
    IntactFrame (BitVec.ofNat 16 (p.length + 2)) (p ++ be16 (crc16 p p.length true)) := by
  have htotal : (BitVec.ofNat 16 (p.length + 2)).toNat = p.length + 2 := by
    rw [BitVec.toNat_ofNat]
    omega
  refine ⟨by omega, ?_, ?_⟩
  · rw [htotal, List.length_append, be16_length]
  · rw [htotal]
    exact crc16_append_trailer p true

/-- The first line of a frame carries its total and what follows (R72). -/
theorem lineLoads_frameBytes (p : List Byte) : ∃ x cs,
    lineLoads (frameBytes p) = (be16 (BitVec.ofNat 16 (p.length + 2)) ++ x) :: cs ∧
    x ++ cs.flatten = p ++ be16 (crc16 p p.length true) := by
  have hlen := frameBytes_length p
  cases h : lineLoads (frameBytes p) with
  | nil =>
    have hflat := lineLoads_flatten (frameBytes p)
    rw [h, List.flatten_nil] at hflat
    rw [← hflat] at hlen
    cases hlen
  | cons c cs =>
    have hflat : frameBytes p = c ++ cs.flatten := by
      rw [← lineLoads_flatten (frameBytes p), h, List.flatten_cons]
    have hhead : c = (frameBytes p).take 93 := by
      have hne : ceilDiv (b64enc (frameBytes p)).length 124 ≠ 0 := by
        have := b64enc_frameBytes_length_ge p
        rw [ceilDiv]
        omega
      have hfirst := congrArg List.head? h
      simpa [lineLoads, List.head?_range, hne, eq_comm] using hfirst
    have hc : 2 < c.length := by
      rw [hhead, List.length_take]
      omega
    rw [frameBytes, List.append_assoc] at hflat
    rcases List.append_eq_append_iff.mp hflat with ⟨x, rfl, hx⟩ | ⟨x, hx, -⟩
    · exact ⟨x, cs, rfl, hx.symm⟩
    · have := congrArg List.length hx
      rw [List.length_append, be16Nat_length] at this
      omega

/-- `t` is `s` with `FRRECV` ended by `OK` and the payload `p`, and `rest` left in the source (R166, R168). -/
structure Received (p : List Byte) (rest : List (Nat × Byte)) (s t : State) : Prop where
  ctrl : t.ctrl = .idle
  results : t.results = s.results ++ [stOk :: (be16Nat p.length ++ [0x00, 0x00] ++ p)]
  source : t.source = rest
  seq : t.seq = s.seq
  sent : t.sent = s.sent
  agenda : t.agenda = s.agenda
  host : t.host = s.host
  returns : t.returns = s.returns

theorem received_frameDone (h : p.length ≤ 65533) (w : Nat) : Received p rest s
    (frameDone (BitVec.ofNat 16 (p.length + 2)) (p ++ be16 (crc16 p p.length true)) (lineTaken w rest s)) := by
  have htotal : (BitVec.ofNat 16 (p.length + 2)).toNat - 2 = p.length := by
    rw [BitVec.toNat_ofNat]
    omega
  rw [frameDone, htotal, List.take_left' rfl]
  exact ⟨rfl, rfl, rfl, rfl, rfl, rfl, rfl, rfl⟩

/-- The segment lines of a payload, with noise before each, are received as the payload (R170). -/
theorem run_frameLines (h : BetweenLines s) (hwf : s.params.wf) (hfits : p.length + 2 ≤ s.params.rxCap)
    (hns : ns.length = (frameLines (frameBytes p)).length)
    (hnoise : ∀ block ∈ ns, ∀ l ∈ block, IsNoise s.params l)
    (ho : Offers s.deadline rest (interleaved ns (frameLines (frameBytes p))) s.source) :
    ∃ t, Host.Core.run core (interleaved ns (frameLines (frameBytes p))).length s = .next t ∧
      Received p rest s t := by
  obtain ⟨-, -, hcap, -, hrx, -, -⟩ := hwf
  have hp : p.length ≤ 65533 := by omega
  obtain ⟨x, cs, hloads, hdata⟩ := lineLoads_frameBytes p
  have hframe := intactFrame_frameBytes hp
  have hall := lineLoads_loads (frameBytes p)
  rw [hloads] at hall
  rw [frameLines, split124_b64enc, hloads] at hns ho ⊢
  rw [seglines_length, List.length_map, List.length_cons] at hns
  have htotal : (BitVec.ofNat 16 (p.length + 2)).toNat ≤ s.params.rxCap := by
    rw [BitVec.toNat_ofNat]
    omega
  rw [← hdata] at hframe
  obtain ⟨w, e⟩ := run_frame h hcap htotal hframe hall hns hnoise ho
  rw [hdata] at e
  exact ⟨_, e, received_frameDone hp w⟩

/-- `FRRECV` has just started, with a deadline still to come (R151). -/
theorem betweenLines_startFrrecv (ha : s.agenda = []) (ht : 0 < s.params.rxTimeout) :
    BetweenLines (startFrrecv s) :=
  ⟨⟨rfl, ha, Nat.lt_add_of_pos_right ht⟩, rfl, rfl⟩

end

/-- Settles O56: the descriptor starts `FRRECV`, and the lines are received one by one. -/
theorem framerRoundTrip : Obligations.FramerRoundTrip := by
  intro s p noise wire later hwf hc hh ha _ hfits htimeout hns hnoise hs hwire hticks
  have hstart : Host.Core.run core 1 s = .next (startFrrecv { s with agenda := [] }) :=
    run_succ_of_step (M := core) 0 (step_command hc hh ha)
  have ho := offers_of_wire (deadline := (startFrrecv { s with agenda := [] }).deadline) (rest := later) hticks
  rw [hwire, ← hs] at ho
  obtain ⟨t, e, h⟩ := run_frameLines (s := startFrrecv { s with agenda := [] })
    (betweenLines_startFrrecv rfl htimeout) hwf hfits hns hnoise ho
  rw [← hwire, List.length_map] at e
  exact ⟨t, (run_add _ hstart).trans e, h.ctrl, h.results, h.source, h.seq, h.sent⟩

/-! ## A whole `PING` (R69) -/

/-- Some number of steps lead from `s` to `t`. -/
def Reaches (s t : State) : Prop := ∃ k, Host.Core.run core k s = .next t

section
variable {s t u : State} {k : Nat}

theorem reaches_of_run (h : Host.Core.run core k s = .next t) : Reaches s t := ⟨k, h⟩

theorem reaches_trans (h : Reaches s t) (h' : Reaches t u) : Reaches s u := by
  obtain ⟨k, h⟩ := h
  obtain ⟨m, h'⟩ := h'
  exact ⟨k + m, (run_add m h).trans h'⟩

theorem reaches_step (h : step s = .next t) : Reaches s t := ⟨1, run_succ_of_step (M := core) 0 h⟩

/-- The host's or an engine's turn. -/
theorem reaches_engineStep (ha : s.agenda = []) (h : engineStep s = .next t) : Reaches s t :=
  reaches_step ((step_of_agenda_nil ha).trans h)

end

/-- The header of the ping request (R190). -/
def pingHeader (sq : Byte) : List Byte := [0x00, 0x00, 0x00, 0x00, 0x00, 0x00, sq, 0x01]

theorem pingHeader_length (sq : Byte) : (pingHeader sq).length = 8 := rfl

/-- `t` is `s` with the ping's request sent and its `FRSEND` ended with `OK`; no time has passed (log 4). -/
structure RequestSent (s t : State) : Prop where
  ctrl : t.ctrl = .idle
  host : t.host = .sending true
  agenda : t.agenda = []
  ok : ∃ before, t.results = before ++ [[stOk]]
  seq : t.seq = s.seq + 1
  sent : t.sent = s.sent ++ frameText (pingHeader s.seq)
  source : t.source = s.source
  now : t.now = s.now
  params : t.params = s.params
  returns : t.returns = s.returns

section
variable {s : State} {plan : List SinkAnswer} {later : List (Nat × Byte)}

/-- A frame of eight bytes has one line, so no delay (R129, R132). -/
theorem frameLines_pingHeader_length (sq : Byte) : (frameLines (frameBytes (pingHeader sq))).length = 1 := by
  rw [frameLines_length, b64enc_length, frameBytes_length, pingHeader_length]
  rfl

/-- `HDRBLD`, then `FRSEND` of the header it returned. -/
theorem ping_sends_request (hwf : s.params.wf) (hc : s.ctrl = .idle) (hh : s.host = .free)
    (ha : s.agenda = [.perform .ping])
    (hp : s.sinkPlan = List.replicate (frameText (pingHeader s.seq)).length .accept ++ plan) :
    ∃ t, Reaches s t ∧ RequestSent s t := by
  obtain ⟨-, -, -, -, -, hmax, -⟩ := hwf
  let built : State := runBuilder 0x00 0x0000 0x01 0 { s with agenda := [], host := .building }
  have hbuild : Reaches s built := reaches_step (step_perform hc hh ha rfl)
  let ready : State := { built with host := .sending true }
  have hlen : (pingHeader s.seq).length ≤ ready.params.txMaxPayload :=
    (pingHeader_length s.seq).trans_le (Nat.le_trans (by decide) hmax)
  have hsend : engineStep built = .next (sendFrame (pingHeader s.seq) ready) :=
    ((pingSequence.2 built s.results stOk (pingHeader s.seq) rfl rfl).1 rfl).trans
      (congrArg Host.Outcome.next (startFrsend_of_le (pingHeader s.seq) ready hlen))
  obtain ⟨t, e, hw, hidle, hres⟩ := run_sendFrame_ended (s := ready) rfl hp
  obtain ⟨hparams, hseq, hsource, hagenda, hhost, hreturns⟩ := written_keeps hw
  exact ⟨t, reaches_trans hbuild (reaches_trans (reaches_engineStep rfl hsend) (reaches_of_run e)),
    hidle, hhost, hagenda, ⟨_, hres⟩, hseq, hw.sent, hsource,
    hw.now (frameLines_pingHeader_length s.seq).le, hparams, hreturns⟩

/-- Lines without noise. -/
theorem interleaved_no_noise (ls : List (List Byte)) : interleaved (ls.map fun _ => []) ls = ls.flatten := by
  induction ls with
  | nil => rfl
  | cons l ls ih => rw [List.map_cons, interleaved, ih]; rfl

/-- `FRRECV`, then `HDRPRS` of the response, which matches. -/
theorem ping_takes_response (flags l1 l0 q : Byte) (body : List Byte) (hwf : s.params.wf) (hc : s.ctrl = .idle)
    (hh : s.host = .sending true) (ha : s.agenda = []) (hok : ∃ before, s.results = before ++ [[stOk]])
    (htimeout : 0 < s.params.rxTimeout) (hfits : body.length + 10 ≤ s.params.rxCap)
    (ho : Offers (s.now + s.params.rxTimeout) later
      (frameLines (frameBytes ([0x01, flags, l1, l0, 0x00, 0x00, q, 0x01] ++ body))).flatten s.source) :
    ∃ t, Reaches s t ∧ t.ctrl = .idle ∧ t.host = .free ∧ t.returns = s.returns ++ [.ping true] ∧
      t.seq = s.seq ∧ t.sent = s.sent ∧ t.source = later := by
  obtain ⟨before, hres⟩ := hok
  obtain ⟨-, -, hstart, -⟩ := pingSequence.2 s before stOk [] hc hres
  let listening : State := startFrrecv { s with host := .receiving true }
  have hlisten : Reaches s listening := reaches_engineStep ha (hstart hh rfl)
  have hlen : ([0x01, flags, l1, l0, 0x00, 0x00, q, 0x01] ++ body).length + 2 = body.length + 10 := by simp
  rw [← interleaved_no_noise] at ho
  obtain ⟨t, e, h⟩ := run_frameLines (s := listening) (betweenLines_startFrrecv ha htimeout) hwf
    (hlen.trans_le hfits)
    (List.length_map _) (by simp) ho
  obtain ⟨-, -, -, -, hparse, -⟩ := pingSequence.2 t _ stOk _ h.ctrl h.results
  have hmatch := (hparse h.host (by decide)).trans
    (hdrprsMatches 0x01 0x0000 0x01 0x01 flags l1 l0 0x00 0x00 q 0x01 body { t with host := .parsing })
  let parsed : State := { t with
    host := .parsing, ctrl := .idle
    results := t.results ++ [stOk :: ([0x01, flags, l1, l0, 0x00, 0x00, q, 0x01] ++ be16Nat body.length ++ body)] }
  have hparsed : Reaches t parsed := reaches_engineStep (h.agenda.trans ha) hmatch
  obtain ⟨-, -, -, -, -, hreturn⟩ := pingSequence.2 parsed t.results stOk _ rfl rfl
  refine ⟨_, reaches_trans hlisten (reaches_trans (reaches_of_run e) (reaches_trans hparsed
    (reaches_engineStep (h.agenda.trans ha) (hreturn rfl)))), rfl, rfl, ?_, h.seq, h.sent, h.source⟩
  exact congrArg (· ++ [.ping true]) h.returns

end

/-- Settles O59: the request is sent, and the response received and matched. -/
theorem pingSucceeds : Obligations.PingSucceeds := by
  intro s flags l1 l0 q body wire later plan hwf hc hh ha htimeout hfits request response hp hs hwire hticks
  obtain ⟨t, hsent, h⟩ := ping_sends_request hwf hc hh ha hp
  have ho := offers_of_wire (rest := later) hticks
  rw [hwire, ← hs, ← h.source, ← h.now, ← h.params] at ho
  obtain ⟨u, hdone, hctrl, hhost, hreturns, hseq, hsent', hsource⟩ := ping_takes_response flags l1 l0 q body
    (h.params ▸ hwf) h.ctrl h.host h.agenda h.ok (h.params ▸ htimeout) (h.params ▸ hfits) ho
  obtain ⟨k, e⟩ := reaches_trans hsent hdone
  exact ⟨k, u, e, hctrl, hhost, h.returns ▸ hreturns, hseq.trans h.seq, hsent'.trans h.sent, hsource⟩

end Sys2Proof.Machine
end
